-- ==== Sys2Proof/Word.lean ====
section
/-! DEFINITION. The word types of BCME: bytes, 32-bit registers, 16-byte blocks (00_scope.md R6, R11, R12). -/

namespace Sys2Proof

/-- A byte of BUF (R12). -/
abbrev Byte := BitVec 8

/-- A 32-bit register value or command word (R11, R21). -/
abbrev Word := BitVec 32

/-- A Block: exactly 16 bytes, byte 0 first (R6). -/
abbrev Block := Vector Byte 16

end Sys2Proof
end

