-- ==== Sys2Proof/Syntax.lean ====
section
/-! DEFINITION. The BCME command set: one constructor per row of opcode_table.json (30_encoding.md R92). -/

namespace Sys2Proof

/-- A command. Every operand but the block size of PAD and UNPAD is a register (R95). -/
inductive Instr where
  /-- PAD (R142); `bs` is BS -/
  | pad (bs : BitVec 8)
  /-- UNPAD (R143); `bs` is BS -/
  | unpad (bs : BitVec 8)
  /-- XOR (R121) -/
  | xor
  /-- BLK.ENC (R122) -/
  | blkEnc
  /-- BLK.DEC (R123) -/
  | blkDec
  /-- ENC (R166) -/
  | enc
  /-- DEC (R170) -/
  | dec
  /-- CHECK (R174) -/
  | check
  /-- CTR.XCRYPT (R177) -/
  | ctrXcrypt
deriving DecidableEq, Repr

end Sys2Proof
end

