-- ==== Sys2Proof/WellFormed.lean ====
section
/-! DEFINITION. Which commands the encoding admits (30_encoding.md R93). -/

namespace Sys2Proof

/-- PAD and UNPAD need 1 <= BS <= 255; the other commands have no BS to choose (R93). -/
def Instr.wellFormed : Instr → Bool
  | .pad bs => bs != 0
  | .unpad bs => bs != 0
  | .xor => true
  | .blkEnc => true
  | .blkDec => true
  | .enc => true
  | .dec => true
  | .check => true
  | .ctrXcrypt => true

/-- The same as a proposition. -/
abbrev Instr.WellFormed (i : Instr) : Prop := i.wellFormed = true

end Sys2Proof
end

