-- ==== Sys2Proof/Decode.lean ====
section
/-! DEFINITION. Decoding a command word, total on all 2^32 words (30_encoding.md R90 to R97), and encoding. -/

namespace Sys2Proof

/-- Why a word is illegal: the causes R202 lists. -/
inductive Illegal where
  /-- a non-zero bit in 31:16 or 7:4 -/
  | reservedBits
  /-- OP 0x0 or 0xA to 0xF -/
  | reservedOp
  /-- BS = 0 for PAD or UNPAD -/
  | zeroBlockSize
  /-- BS != 0 for any other command -/
  | blockSizeOnOther
deriving DecidableEq, Repr

/-- `OP = v[3:0]` (R90). -/
def opField (v : Word) : BitVec 4 := v.extractLsb' 0 4

/-- `RSV0 = v[7:4]` (R90). -/
def rsv0Field (v : Word) : BitVec 4 := v.extractLsb' 4 4

/-- `BS = v[15:8]` (R90, R93). -/
def bsField (v : Word) : BitVec 8 := v.extractLsb' 8 8

/-- `RSV1 = v[31:16]` (R90). -/
def rsv1Field (v : Word) : BitVec 16 := v.extractLsb' 16 16

/-- `Legal(v)`, as R94 writes it. -/
def legal (v : Word) : Bool :=
  rsv1Field v == 0 && rsv0Field v == 0 &&
  (1 ≤ (opField v).toNat && (opField v).toNat ≤ 9) &&
  (if opField v == 1 || opField v == 2 then bsField v != 0 else bsField v == 0)

/-- A command with a block size: BS = 0 is illegal (R93). -/
def withBlockSize (bs : BitVec 8) (mk : BitVec 8 → Instr) : Except Illegal Instr :=
  if bs = 0 then .error .zeroBlockSize else .ok (mk bs)

/-- A command without a block size: BS must be 0 (R93). -/
def withoutBlockSize (bs : BitVec 8) (i : Instr) : Except Illegal Instr :=
  if bs = 0 then .ok i else .error .blockSizeOnOther

/-- The opcode map (R92). -/
def decodeOp (op : Nat) (bs : BitVec 8) : Except Illegal Instr :=
  match op with
  | 1 => withBlockSize bs .pad
  | 2 => withBlockSize bs .unpad
  | 3 => withoutBlockSize bs .xor
  | 4 => withoutBlockSize bs .blkEnc
  | 5 => withoutBlockSize bs .blkDec
  | 6 => withoutBlockSize bs .enc
  | 7 => withoutBlockSize bs .dec
  | 8 => withoutBlockSize bs .check
  | 9 => withoutBlockSize bs .ctrXcrypt
  | _ => .error .reservedOp

/-- `Decode(v)` (R96): the command, or why the word is illegal. -/
def decode (v : Word) : Except Illegal Instr :=
  if rsv1Field v = 0 ∧ rsv0Field v = 0 then decodeOp (opField v).toNat (bsField v)
  else .error .reservedBits

/-- `OP(cmd)` (R92). -/
def Instr.opcode : Instr → Nat
  | .pad _ => 1
  | .unpad _ => 2
  | .xor => 3
  | .blkEnc => 4
  | .blkDec => 5
  | .enc => 6
  | .dec => 7
  | .check => 8
  | .ctrXcrypt => 9

/-- The BS field a command is written with: 0 for a command without one (R93). -/
def Instr.blockSize : Instr → BitVec 8
  | .pad bs => bs
  | .unpad bs => bs
  | .xor => 0
  | .blkEnc => 0
  | .blkDec => 0
  | .enc => 0
  | .dec => 0
  | .check => 0
  | .ctrXcrypt => 0

/-- `word(cmd, BS) = (BS << 8) | OP(cmd)` (R96). -/
def encode (i : Instr) : Word :=
  (i.blockSize.setWidth 32 <<< 8) ||| BitVec.ofNat 32 i.opcode

/-- The 517 legal words in the order R97 lists them. -/
def legalWords : List Word :=
  (List.range 255).map (fun b => BitVec.ofNat 32 ((b + 1) * 256 + 1)) ++
  (List.range 255).map (fun b => BitVec.ofNat 32 ((b + 1) * 256 + 2)) ++
  [0x00000003, 0x00000004, 0x00000005, 0x00000006, 0x00000007, 0x00000008, 0x00000009]

/-- What the decoder reads from a table row's word. Every BCME word has exactly 32 bits (R91). -/
def decodeTableWord (nbits w : Nat) : Option Instr :=
  match decode (BitVec.ofNat 32 (w % 2 ^ nbits)) with
  | .ok i => some i
  | .error _ => none

end Sys2Proof
end

