-- ==== Sys2Proof/Config.lean ====
section
/-! DEFINITION. What an implementation of BCME fixes: the parameters of 00_scope.md R7, and the BlockPrimitive that
the spec leaves open (R8, R9). -/

namespace Sys2Proof

/-- The BlockPrimitive BCME is built around: a keyed permutation of 16-byte blocks, of which nothing else is known
(R9). It has no body: no proof can learn which cipher it is. A permutation carries both laws of R9 with it. (log 6) -/
opaque Config.blockPrimitive : List Byte → Equiv.Perm Block

/-- Which BlockPrimitive an implementation has: the open one, or the toy instantiation that 95_test_vectors.md §0
gives, so that the spec's vectors can be evaluated. (log 6, DESIGN CHOICE) -/
inductive Primitive where
  /-- the open parameter `E`, `D` of R7 -/
  | external
  /-- TOY of 95_test_vectors.md §0, which gives it for KEY_BYTES = 16 (log 21 for other lengths, DESIGN CHOICE) -/
  | toy
deriving DecidableEq, Repr

/-- The implementation parameters of R7. They are arguments of the model, not architectural state (R20); State
carries them because a step has no other argument, and no step changes them. (log 1) -/
structure Params where
  /-- `E` and `D` -/
  primitive : Primitive
  /-- `KEY_BYTES` -/
  keyBytes : Nat
  /-- `MEM_BYTES` -/
  memBytes : Nat
  /-- `REG_BASE` (R72) -/
  regBase : Nat
  /-- `BUF_BASE` (R72) -/
  bufBase : Nat
deriving DecidableEq, Repr

/-- `KEY_WORDS = KEY_BYTES / 4` (R7). -/
def Params.keyWords (p : Params) : Nat := p.keyBytes / 4

/-- The legal values of the parameters (R7): KEY_BYTES a multiple of 4 in 4..64, MEM_BYTES a multiple of 16 in
16..2^31. -/
abbrev Params.Legal (p : Params) : Prop :=
  p.keyBytes % 4 = 0 ∧ 4 ≤ p.keyBytes ∧ p.keyBytes ≤ 64 ∧
  p.memBytes % 16 = 0 ∧ 16 ≤ p.memBytes ∧ p.memBytes ≤ 2 ^ 31

/-- The parameters `State.reset` has: the open primitive, the suggested sizes of R7, and a placement of the two
spaces. (log 1, DESIGN CHOICE) -/
def Config.params : Params :=
  { primitive := .external, keyBytes := 16, memBytes := 4096, regBase := 0, bufBase := 0x1000 }

end Sys2Proof
end

