-- ==== Sys2Proof/Machine/State.lean ====
section
/-! DEFINITION. The state of BCME (10_state.md R20), the Host's accesses, and the reasons a step can stop. -/

namespace Sys2Proof.Machine

open Sys2Proof

/-- BUF (R44, R60): the bytes that differ from what an unlisted address reads as, at strictly rising addresses. -/
abbrev Memory := List Host.Cell

/-- What an address of BUF that is not listed reads as. The spec gives BUF no reset contents but a draw per byte
(R45, R79): `State.reset` has the all-zero draw, and a reset event carries any draw. (log 5, DESIGN CHOICE) -/
def Memory.unlisted : Byte := 0

/-- Every entry lies at or above `lo`, addresses rise strictly, and no entry equals what an unlisted address reads
as. -/
def Memory.wfFrom : Nat → Memory → Bool
  | _, [] => true
  | lo, (a, b) :: m => lo ≤ a && b != Memory.unlisted && Memory.wfFrom (a + 1) m

/-- The canonical form: equal memories are equal lists. -/
def Memory.wf (m : Memory) : Bool := Memory.wfFrom 0 m

/-- The error kinds a command can end in (60_exceptions.md R201). -/
inductive ErrorKind where
  /-- R205 -/
  | lengthMismatch
  /-- R208 -/
  | invalidPadding
  /-- R207 -/
  | missingIvOrNonce
  /-- R203 -/
  | unsupportedModeOperation
  /-- R202 -/
  | illegalCommand
  /-- R206 -/
  | keyNotLoaded
  /-- R204 -/
  | addressRange
deriving DecidableEq, Repr

/-- The registers of the map of R22, by the name of their slot. -/
inductive Reg where
  | ctrl
  | status
  | cmd
  | outLen
  | src
  | len
  | dst
  | aux
  | auxLen
  | info
  | memSize
  | iv (k : Fin 4)
  | nonceLo
  | nonceHi
  | key (k : Fin 16)
  /-- a reserved offset (R40) -/
  | reserved
deriving DecidableEq, Repr

/-- One Host access: its width in bytes, and for a write its value, of which the low `8 * width` bits count
(20_memory.md R63, R64; log 17). -/
inductive Access where
  | read (width : Nat)
  | write (width : Nat) (value : Word)
deriving DecidableEq, Repr

/-- What a reset draws: the contents R45 leaves unspecified. (log 4, log 5) -/
structure ResetDraw where
  iv : Vector Word 4
  nonceLo : Word
  nonceHi : Word
  key : Vector Word 16
  buf : List Host.Cell
deriving DecidableEq, Repr

/-- What the world outside BCME does to it, one event a step: a Host access to the register space at an offset or
to BUF at a byte address, the same through the platform's address map (R72), or a reset (R230). (log 2) -/
inductive HostEvent where
  | reg (offset : Nat) (acc : Access)
  | buf (addr : Nat) (acc : Access)
  | bus (hostAddr : Nat) (acc : Access)
  | reset (draw : ResetDraw)
deriving DecidableEq, Repr

/-- The state of BCME. The first group is the architectural state of R20; the last three fields are the model's own
(log 1, log 2). -/
structure State where
  /-- CTRL.MODE (R25) -/
  mode : BitVec 2
  /-- CTRL.KEYLOCK (R26) -/
  keyLock : Bool
  /-- STATUS.ERR (R27) -/
  err : Bool
  /-- STATUS.ERRCODE (R27, R201) -/
  errCode : BitVec 4
  /-- STATUS.PAD_OK (R27) -/
  padOk : Bool
  /-- OUT_LEN (R31) -/
  outLen : Word
  /-- SRC (R23) -/
  src : Word
  /-- LEN (R23) -/
  len : Word
  /-- DST (R23) -/
  dst : Word
  /-- AUX (R23) -/
  aux : Word
  /-- AUX_LEN (R23) -/
  auxLen : Word
  /-- IV[0..3] (R34) -/
  iv : Vector Word 4
  /-- NONCE_LO (R36) -/
  nonceLo : Word
  /-- NONCE_HI (R36) -/
  nonceHi : Word
  /-- KEY[0..15], the words at or above KEY_WORDS inert (R37, R40; log 11) -/
  key : Vector Word 16
  /-- IV_WMASK (R41) -/
  ivMask : BitVec 4
  /-- NONCE_WMASK (R41) -/
  nonceMask : BitVec 2
  /-- KEY_WMASK, the bits at or above KEY_WORDS always 0 (R41; log 11) -/
  keyMask : BitVec 16
  /-- BUF (R44) -/
  buf : Memory
  /-- the implementation parameters (R7), fixed -/
  params : Params
  /-- the events still to come, oldest first -/
  pending : List HostEvent
  /-- what the Host's reads have returned, oldest first (R100) -/
  results : List Word
deriving DecidableEq, Repr

/-- Faults that stop the machine: none. BCME has no trap, and no error stops the Engine (R213, R215); a command that
cannot complete takes the error completion of R209, which is a next state. (log 13, safe) -/
inductive Fault where
deriving DecidableEq, Repr

/-- Accesses that the model refuses because BCME does not take them (I8), and the host's reason for an instruction
without a meaning. -/
inductive Refusal where
  /-- raised by no meaning of this model; the reason of an arm that has no meaning yet (safe) -/
  | notModelled (mnemonic : String)
  /-- raised by a Host access to the register space that is not an aligned 32-bit access below 0x100 (R64); safe -/
  | registerAccessNotTaken
  /-- raised by a Host access to BUF of another width than 1, 2, 4, misaligned, or past MEM_BYTES (R63); safe -/
  | bufferAccessNotTaken
  /-- raised by a platform address that lies in neither space, so not BCME's (R72; log 9); safe -/
  | busAddressElsewhere
  /-- raised by a platform address that lies in both spaces, which a platform may not arrange (R72; log 9); safe -/
  | busAddressAmbiguous
deriving DecidableEq, Repr

/-- The state after reset with parameters `p` and the draws `d` (R45, R230), with nothing pending. -/
def State.afterReset (p : Params) (iv : Vector Word 4) (nonceLo nonceHi : Word) (key : Vector Word 16)
    (buf : Memory) : State :=
  { mode := 0, keyLock := false, err := false, errCode := 0, padOk := false, outLen := 0
    src := 0, len := 0, dst := 0, aux := 0, auxLen := 0
    iv := iv, nonceLo := nonceLo, nonceHi := nonceHi, key := key
    ivMask := 0, nonceMask := 0, keyMask := 0
    buf := buf, params := p, pending := [], results := [] }

/-- The machine right after reset (R45), with the parameters of `Config.params`; the contents R45 leaves unspecified
are zero here (log 4, log 5, DESIGN CHOICE), and a reset event brings any other. -/
def State.reset : State :=
  State.afterReset Config.params (Vector.replicate 4 0) 0 0 (Vector.replicate 16 0) []

end Sys2Proof.Machine
end

