-- ==== Sys2Proof/Machine/Flags.lean ====
section
/-! DEFINITION. STATUS, its readiness bits, and the masks behind them (10_state.md R27, R28, R41; 60_exceptions.md
R201). -/

namespace Sys2Proof.Machine

open Sys2Proof

/-- The ERRCODE of an error kind (R201). -/
def ErrorKind.code : ErrorKind → BitVec 4
  | .lengthMismatch => 1
  | .invalidPadding => 2
  | .missingIvOrNonce => 3
  | .unsupportedModeOperation => 4
  | .illegalCommand => 5
  | .keyNotLoaded => 6
  | .addressRange => 7

/-- `STATUS.KEY_LOADED = (KEY_WMASK = 2^KEY_WORDS - 1)` (R28). -/
def keyLoaded (s : State) : Bool := s.keyMask.toNat == 2 ^ s.params.keyWords - 1

/-- `STATUS.IV_VALID = (IV_WMASK = 0b1111)` (R28). -/
def ivValid (s : State) : Bool := s.ivMask == 0b1111

/-- `STATUS.NONCE_VALID = (NONCE_WMASK = 0b11)` (R28). -/
def nonceValid (s : State) : Bool := s.nonceMask == 0b11

/-- A mask with bit `k` set (R41). -/
def setMaskBit {n : Nat} (m : BitVec n) (k : Nat) : BitVec n := m ||| (1#n <<< k)

/-- A one-bit field at bit `i` of a register. -/
def flagAt (i : Nat) (b : Bool) : Word := if b then 1#32 <<< i else 0

/-- The value STATUS reads (R27). -/
def statusWord (s : State) : Word :=
  flagAt 0 s.err ||| (s.errCode.setWidth 32 <<< 4) ||| flagAt 8 s.padOk |||
  flagAt 16 (keyLoaded s) ||| flagAt 17 (ivValid s) ||| flagAt 18 (nonceValid s)

/-- The three flags and OUT_LEN, which every completion writes and nothing else does (R27, R31). -/
def setResult (err : Bool) (code : BitVec 4) (padOk : Bool) (outLen : Nat) (s : State) : State :=
  { s with err := err, errCode := code, padOk := padOk, outLen := BitVec.ofNat 32 outLen }

end Sys2Proof.Machine
end

