-- ==== Sys2Proof/Machine/Bytes.lean ====
section
/-! DEFINITION. Byte sequences, byte order, blocks (00_scope.md R12, 20_memory.md R65, R66). -/

namespace Sys2Proof.Machine

open Sys2Proof

/-- `v[8j+7 : 8j]`: byte `j` of a word, least significant first (R65). -/
def byteOf (v : Word) (j : Nat) : Byte := v.extractLsb' (8 * j) 8

/-- The first `w` bytes of a word, least significant first (R63, R65). -/
def wordBytes (w : Nat) (v : Word) : List Byte := (List.range w).map (byteOf v)

/-- `sum over j of B[j] * 2^(8j)` (R63). -/
def leValue : List Byte → Nat
  | [] => 0
  | b :: bs => b.toNat + 256 * leValue bs

/-- `LE64(x)` (R12): byte `j` is `(x >> 8j) mod 256`. -/
def le64 (x : Nat) : List Byte := (List.range 8).map fun j => BitVec.ofNat 8 (x / 2 ^ (8 * j))

/-- `A XOR B` on equal-length sequences (R12). -/
def xorBytes (a b : List Byte) : List Byte := List.zipWith (· ^^^ ·) a b

/-- The block whose byte `i` is `f i`. -/
def blockOfFn (f : Nat → Byte) : Block := ⟨((List.range 16).map f).toArray, by simp⟩

/-- The 16 bytes of a sequence of length 16, as a block. -/
def blockOfBytes (l : List Byte) : Block := blockOfFn fun i => l.getD i 0

/-- The bytes of a block, byte 0 first. -/
def blockBytes (x : Block) : List Byte := x.toList

/-- `A XOR B` on blocks. -/
def xorBlock (x y : Block) : Block := blockOfBytes (xorBytes (blockBytes x) (blockBytes y))

/-- `B[i..j)` (R12). -/
def slice (b : List Byte) (i j : Nat) : List Byte := (b.drop i).take (j - i)

/-- `Blocks(B)`: the blocks `B[16j..16j+16)` for `j = 0, 1, ...`, for `|B|` a multiple of 16 (R12). -/
def blocks (b : List Byte) : List Block :=
  (List.range (b.length / 16)).map fun j => blockOfBytes (slice b (16 * j) (16 * j + 16))

/-- `X_1 ++ X_2 ++ ... ++ X_n`. -/
def joinBlocks (xs : List Block) : List Byte := xs.flatMap blockBytes

end Sys2Proof.Machine
end

