-- ==== Sys2Proof/Machine/Memory.lean ====
section
/-! DEFINITION. Reading and writing BUF (20_memory.md R61). -/

namespace Sys2Proof.Machine

open Sys2Proof

/-- `BUF[a]`. -/
def Memory.read : Memory → Nat → Byte
  | [], _ => Memory.unlisted
  | (k, b) :: m, a => if k = a then b else Memory.read m a

/-- An entry in front of a memory, left out when it equals what an unlisted address reads as. -/
def Memory.put (a : Nat) (b : Byte) (m : Memory) : Memory :=
  if b = Memory.unlisted then m else (a, b) :: m

/-- `BUF[a] <- b`, keeping the canonical form. -/
def Memory.write : Memory → Nat → Byte → Memory
  | [], a, b => Memory.put a b []
  | (k, c) :: m, a, b =>
    if a < k then Memory.put a b ((k, c) :: m)
    else if a = k then Memory.put a b m
    else (k, c) :: Memory.write m a b

/-- `MemRead(addr, n)` (R61). -/
def Memory.readBytes (m : Memory) (addr n : Nat) : List Byte :=
  (List.range n).map fun i => Memory.read m (addr + i)

/-- `MemWrite(addr, |v|, v)` (R61): byte `i` to `addr + i`, in increasing order. -/
def Memory.writeBytes : Memory → Nat → List Byte → Memory
  | m, _, [] => m
  | m, addr, b :: v => Memory.writeBytes (Memory.write m addr b) (addr + 1) v

/-- BUF with the bytes of a list of cells, those past its end left out, the later of two at one address winning:
the draw of a reset (R79). -/
def Memory.ofCells (memBytes : Nat) (cells : List Host.Cell) : Memory :=
  cells.foldl (fun m c => if c.1 < memBytes then Memory.write m c.1 c.2 else m) []

end Sys2Proof.Machine
end

