-- ==== Sys2Proof/Machine/BlockCipher.lean ====
section
/-! DEFINITION. The BlockPrimitive of an implementation (00_scope.md R7 to R9) and the toy instantiation of
95_test_vectors.md §0. -/

namespace Sys2Proof.Machine

open Sys2Proof

/-- `TOY.E(K, x)[i] = x[(i + 1) mod 16] XOR K[i]`. 95_test_vectors.md §0 gives TOY for KEY_BYTES = 16 alone: that a
missing `K[i]` of a shorter key reads as 0, and that `K[i]` past 15 of a longer one has no part, is the model's. (log 21,
DESIGN CHOICE) -/
def toyE (k : List Byte) (x : Block) : Block :=
  blockOfFn fun i => x[(i + 1) % 16]'(Nat.mod_lt _ (by decide)) ^^^ k.getD i 0

/-- `TOY.D(K, y)[j] = y[(j - 1) mod 16] XOR K[(j - 1) mod 16]`, with the key bytes of another KEY_BYTES than 16 taken as
in `toyE`. (log 21, DESIGN CHOICE) -/
def toyD (k : List Byte) (y : Block) : Block :=
  blockOfFn fun j => y[(j + 15) % 16]'(Nat.mod_lt _ (by decide)) ^^^ k.getD ((j + 15) % 16) 0

theorem blockOfFn_getElem (f : Nat → Byte) (i : Nat) (h : i < 16) : (blockOfFn f)[i] = f i := by
  simp [blockOfFn]

/-- TOY meets the first law of R9. -/
theorem toyD_toyE (k : List Byte) (x : Block) : toyD k (toyE k x) = x := by
  ext i h
  simp only [toyD, toyE, blockOfFn_getElem]
  have e : ((i + 15) % 16 + 1) % 16 = i := by omega
  simp only [e, BitVec.xor_assoc, BitVec.xor_self, BitVec.xor_zero]

/-- TOY meets the second law of R9. -/
theorem toyE_toyD (k : List Byte) (x : Block) : toyE k (toyD k x) = x := by
  ext i h
  simp only [toyD, toyE, blockOfFn_getElem]
  have e : ((i + 1) % 16 + 15) % 16 = i := by omega
  simp only [e, BitVec.xor_assoc, BitVec.xor_self, BitVec.xor_zero]

/-- TOY as a keyed permutation. -/
def toy (k : List Byte) : Equiv.Perm Block where
  toFun := toyE k
  invFun := toyD k
  left_inv := toyD_toyE k
  right_inv := toyE_toyD k

/-- The keyed permutation of an implementation (R9). -/
def cipher (p : Params) (k : List Byte) : Equiv.Perm Block :=
  match p.primitive with
  | .external => Config.blockPrimitive k
  | .toy => toy k

/-- `E(K, x)` (R9). -/
def encBlock (p : Params) (k : List Byte) (x : Block) : Block := cipher p k x

/-- `D(K, y)` (R9). -/
def decBlock (p : Params) (k : List Byte) (y : Block) : Block := (cipher p k).symm y

end Sys2Proof.Machine
end

