-- ==== Sys2Proof/Machine/Operands.lean ====
section
/-! DEFINITION. The operands of a command (30_encoding.md R95), the register views (10_state.md R35, R36, R38) and the
tables of 60_exceptions.md R200, R204 that say what each command needs. -/

namespace Sys2Proof.Machine

open Sys2Proof

/-- CTRL.MODE = 0 (R24). -/
abbrev modeEcb : BitVec 2 := 0

/-- CTRL.MODE = 1 (R24). -/
abbrev modeCbc : BitVec 2 := 1

/-- CTRL.MODE = 2 (R24). -/
abbrev modeCtr : BitVec 2 := 2

/-- `IVbytes` (R35). -/
def ivBytes (s : State) : List Byte := s.iv.toList.flatMap (wordBytes 4)

/-- The IV as the Block it is (R34). -/
def ivBlock (s : State) : Block := blockOfBytes (ivBytes s)

/-- `NONCEval = NONCE_HI * 2^32 + NONCE_LO` (R36). -/
def nonceVal (s : State) : Nat := s.nonceHi.toNat * 2 ^ 32 + s.nonceLo.toNat

/-- `Keybytes` (R38): the bytes of the KEY_WORDS words in use. -/
def keyBytes (s : State) : List Byte := (s.key.toList.take s.params.keyWords).flatMap (wordBytes 4)

/-- `MemRead(SRC, LEN)`: the input of a command (R95). -/
def srcBytes (s : State) : List Byte := s.buf.readBytes s.src.toNat s.len.toNat

/-- `MemRead(AUX, AUX_LEN)`: operand B of XOR (R95). -/
def auxBytes (s : State) : List Byte := s.buf.readBytes s.aux.toNat s.auxLen.toNat

/-- `InRange(addr, n)`, on unbounded naturals (20_memory.md R62). -/
def inRange (s : State) (addr n : Nat) : Bool := addr + n ≤ s.params.memBytes

/-- `NeedsKey(cmd)` (R200). -/
def needsKey : Instr → Bool
  | .pad _ => false
  | .unpad _ => false
  | .xor => false
  | .blkEnc => true
  | .blkDec => true
  | .enc => true
  | .dec => true
  | .check => true
  | .ctrXcrypt => true

/-- `NeedsIV(cmd, m)` (R200). -/
def needsIV (i : Instr) (m : BitVec 2) : Bool :=
  match i with
  | .pad _ => false
  | .unpad _ => false
  | .xor => false
  | .blkEnc => false
  | .blkDec => false
  | .enc => m == modeCbc
  | .dec => m == modeCbc
  | .check => m == modeCbc
  | .ctrXcrypt => false

/-- `NeedsNonce(cmd, m)` (R200). -/
def needsNonce (i : Instr) (m : BitVec 2) : Bool :=
  match i with
  | .pad _ => false
  | .unpad _ => false
  | .xor => false
  | .blkEnc => false
  | .blkDec => false
  | .enc => m == modeCtr
  | .dec => m == modeCtr
  | .check => false
  | .ctrXcrypt => true

/-- The modes a command supports (R203). A command that does not depend on the mode supports every one (R25). -/
def modeSupported (i : Instr) (m : BitVec 2) : Bool :=
  match i with
  | .pad _ => true
  | .unpad _ => true
  | .xor => true
  | .blkEnc => true
  | .blkDec => true
  | .enc => m != 3
  | .dec => m != 3
  | .check => m == modeEcb || m == modeCbc
  | .ctrXcrypt => m == modeCtr

/-- XOR alone has a second operand (R95, R204). -/
def usesAux : Instr → Bool
  | .pad _ => false
  | .unpad _ => false
  | .xor => true
  | .blkEnc => false
  | .blkDec => false
  | .enc => false
  | .dec => false
  | .check => false
  | .ctrXcrypt => false

/-- BLK.ENC and BLK.DEC work on exactly one block (R205). -/
def oneBlock : Instr → Bool
  | .pad _ => false
  | .unpad _ => false
  | .xor => false
  | .blkEnc => true
  | .blkDec => true
  | .enc => false
  | .dec => false
  | .check => false
  | .ctrXcrypt => false

/-- Every command but CHECK writes at DST (R174, R204). -/
def usesDst : Instr → Bool
  | .pad _ => true
  | .unpad _ => true
  | .xor => true
  | .blkEnc => true
  | .blkDec => true
  | .enc => true
  | .dec => true
  | .check => false
  | .ctrXcrypt => true

/-- `MaxOut(cmd, m, bs, L)`, the most bytes a command can write (R204); CHECK writes none (R174). -/
def maxOut (i : Instr) (m : BitVec 2) (l : Nat) : Nat :=
  match i with
  | .pad bs => l + (bs.toNat - l % bs.toNat)
  | .unpad _ => l
  | .xor => l
  | .blkEnc => 16
  | .blkDec => 16
  | .enc => if m = modeCtr then l else l + (16 - l % 16)
  | .dec => l
  | .check => 0
  | .ctrXcrypt => l

end Sys2Proof.Machine
end

