-- ==== Sys2Proof/Machine/Ops.lean ====
section
/-! DEFINITION. Completion and the command procedure (60_exceptions.md R200, R207, R209, R210). -/

namespace Sys2Proof.Machine

open Sys2Proof

/-- `raise c`: the error completion (R209). It is all that "taking an exception" is on BCME: no trap entry, no saved
state, no return (R213, R214). -/
def raiseError (e : ErrorKind) (s : State) : State := setResult true e.code false 0 s

/-- `complete(out, p)`: the success completion (R210). -/
def complete (out : List Byte) (p : Bool) (s : State) : State :=
  setResult false 0 p out.length { s with buf := s.buf.writeBytes s.dst.toNat out }

/-- What the body of a command ends in (step 7 of R200). -/
inductive BodyResult where
  /-- `complete(out, pad_ok)` -/
  | complete (out : List Byte) (padOk : Bool)
  /-- `raise INVALID_PADDING` (R208) -/
  | invalidPadding
deriving DecidableEq, Repr

/-- Steps 1 to 6 of R200 in order: each check with whether it passes, and the error of its failure. -/
def checks (i : Instr) (s : State) : List (Bool × ErrorKind) :=
  [ (i.wellFormed, .illegalCommand),
    (modeSupported i s.mode, .unsupportedModeOperation),
    (inRange s s.src.toNat s.len.toNat, .addressRange),
    (!usesAux i || inRange s s.aux.toNat s.auxLen.toNat, .addressRange),
    (!usesDst i || inRange s s.dst.toNat (maxOut i s.mode s.len.toNat), .addressRange),
    (!usesAux i || s.len == s.auxLen, .lengthMismatch),
    (!oneBlock i || s.len == 16, .lengthMismatch),
    (!needsKey i || keyLoaded s, .keyNotLoaded),
    (!needsIV i s.mode || ivValid s, .missingIvOrNonce),
    (!needsNonce i s.mode || nonceValid s, .missingIvOrNonce) ]

/-- The error of the first check that fails (R211). -/
def firstFailure : List (Bool × ErrorKind) → Option ErrorKind
  | [] => none
  | (ok, e) :: rest => if ok then firstFailure rest else some e

/-- Consumption of the IV or the nonce by a command that needs it (R41, R207). The words keep their values. -/
def consume (i : Instr) (s : State) : State :=
  { s with
    ivMask := if needsIV i s.mode then 0 else s.ivMask
    nonceMask := if needsNonce i s.mode then 0 else s.nonceMask }

/-- The end of a body: a completion of either kind. -/
def finish (r : BodyResult) (s : State) : State :=
  match r with
  | .complete out p => complete out p s
  | .invalidPadding => raiseError .invalidPadding s

/-- `Execute` (R200) for a decoded command with its body: the checks, then consumption, then the body on the registers
and BUF as they stood at the CMD write (R69), then its completion. -/
def execute (i : Instr) (body : State → BodyResult) (s : State) : State :=
  match firstFailure (checks i s) with
  | some e => raiseError e s
  | none => finish (body s) (consume i s)

end Sys2Proof.Machine
end

