-- ==== Sys2Proof/Machine/Padding.lean ====
section
/-! DEFINITION. The padding codec: `Pad`, `Unpad` (41_padding_codec.md R140, R141) and the commands PAD, UNPAD (R142,
R143). -/

namespace Sys2Proof.Machine

open Sys2Proof

/-- `Pad(B, bs)` (R140). -/
def pad (b : List Byte) (bs : Nat) : List Byte :=
  let n := bs - b.length % bs
  b ++ List.replicate n (BitVec.ofNat 8 n)

/-- `Unpad(B, bs)` (R141): `some P` for `accept(P)`, `none` for `reject`. -/
def unpad (b : List Byte) (bs : Nat) : Option (List Byte) :=
  if b.length % bs ≠ 0 then none
  else if b.length = 0 then none
  else
    let last := b.getD (b.length - 1) 0
    let k := last.toNat
    if k < 1 ∨ bs < k then none
    else if (List.range k).all fun i => b.getD (b.length - (i + 1)) 0 == last then
      some (b.take (b.length - k))
    else none

/-- The end of a body that checks padding and writes what is left: UNPAD, DEC (R143, R171, R172). -/
def acceptOrRaise : Option (List Byte) → BodyResult
  | some p => .complete p true
  | none => .invalidPadding

/-- The body of PAD (R142). -/
def padBody (bs : BitVec 8) (s : State) : BodyResult := .complete (pad (srcBytes s) bs.toNat) false

/-- The body of UNPAD (R143). -/
def unpadBody (bs : BitVec 8) (s : State) : BodyResult := acceptOrRaise (unpad (srcBytes s) bs.toNat)

/-- PAD (R142). -/
def execPad (bs : BitVec 8) (s : State) : Host.Outcome State Fault Refusal :=
  .next (execute (.pad bs) (padBody bs) s)

/-- UNPAD (R143). -/
def execUnpad (bs : BitVec 8) (s : State) : Host.Outcome State Fault Refusal :=
  .next (execute (.unpad bs) (unpadBody bs) s)

end Sys2Proof.Machine
end

