-- ==== Sys2Proof/Machine/ModeEngine.lean ====
section
/-! DEFINITION. The mode engine: the mode functions (42_mode_engine.md R161 to R165) and the commands ENC, DEC, CHECK,
CTR.XCRYPT (R166 to R177). -/

namespace Sys2Proof.Machine

open Sys2Proof

/-- `EcbEncrypt(K, P)` (R161). -/
def ecbEncrypt (p : Params) (k b : List Byte) : List Byte :=
  joinBlocks ((blocks (pad b 16)).map (encBlock p k))

/-- Whether a length is one that ECB and CBC decryption accept: a non-zero multiple of 16 (R160, R162, R164). -/
def wholeBlocks (b : List Byte) : Bool := b.length != 0 && b.length % 16 == 0

/-- `EcbDecrypt(K, C)` (R162). -/
def ecbDecrypt (p : Params) (k c : List Byte) : Option (List Byte) :=
  if wholeBlocks c then unpad (joinBlocks ((blocks c).map (decBlock p k))) 16 else none

/-- `C_i = E(K, Q_i XOR C_{i-1})`, `C_0` given (R163). -/
def cbcChain (p : Params) (k : List Byte) : Block → List Block → List Block
  | _, [] => []
  | c, q :: qs =>
    let c' := encBlock p k (xorBlock q c)
    c' :: cbcChain p k c' qs

/-- `P_i = D(K, C_i) XOR C_{i-1}`, `C_0` given (R164). -/
def cbcUnchain (p : Params) (k : List Byte) : Block → List Block → List Block
  | _, [] => []
  | c, c' :: cs => xorBlock (decBlock p k c') c :: cbcUnchain p k c' cs

/-- `CbcEncrypt(K, iv, P)` (R163). -/
def cbcEncrypt (p : Params) (k : List Byte) (iv : Block) (b : List Byte) : List Byte :=
  joinBlocks (cbcChain p k iv (blocks (pad b 16)))

/-- `CbcDecrypt(K, iv, C)` (R164). -/
def cbcDecrypt (p : Params) (k : List Byte) (iv : Block) (c : List Byte) : Option (List Byte) :=
  if wholeBlocks c then unpad (joinBlocks (cbcUnchain p k iv (blocks c))) 16 else none

/-- The counter block of keystream block `i` (20_memory.md R66). (log 7) -/
def counterBlock (nonce i : Nat) : Block := blockOfBytes (le64 nonce ++ le64 (i % 2 ^ 64))

/-- The first `m` keystream blocks, counters 0 to `m - 1` (R165). -/
def keystream (p : Params) (k : List Byte) (nonce m : Nat) : List Byte :=
  joinBlocks ((List.range m).map fun i => encBlock p k (counterBlock nonce i))

/-- `CtrTransform(K, nv, B)` (R165). -/
def ctrTransform (p : Params) (k : List Byte) (nonce : Nat) (b : List Byte) : List Byte :=
  xorBytes b ((keystream p k nonce ((b.length + 15) / 16)).take b.length)

/-- The body of a CTR transform (R169, R173, R177). -/
def ctrBody (s : State) : BodyResult :=
  .complete (ctrTransform s.params (keyBytes s) (nonceVal s) (srcBytes s)) false

/-- `EcbDecrypt` or `CbcDecrypt` of the input, by CTRL.MODE (R171, R172, R175, R176). -/
def blockDecrypt (s : State) : Option (List Byte) :=
  if s.mode = modeCbc then cbcDecrypt s.params (keyBytes s) (ivBlock s) (srcBytes s)
  else ecbDecrypt s.params (keyBytes s) (srcBytes s)

/-- The body of ENC, which dispatches on CTRL.MODE (R166 to R169). -/
def encBody (s : State) : BodyResult :=
  if s.mode = modeCtr then ctrBody s
  else if s.mode = modeCbc then
    .complete (cbcEncrypt s.params (keyBytes s) (ivBlock s) (srcBytes s)) false
  else .complete (ecbEncrypt s.params (keyBytes s) (srcBytes s)) false

/-- The body of DEC, which dispatches on CTRL.MODE (R170 to R173). -/
def decBody (s : State) : BodyResult :=
  if s.mode = modeCtr then ctrBody s else acceptOrRaise (blockDecrypt s)

/-- The body of CHECK: nothing is written, the verdict is PAD_OK (R174 to R176, R208). -/
def checkBody (s : State) : BodyResult := .complete [] (blockDecrypt s).isSome

/-- ENC (R166). -/
def execEnc (s : State) : Host.Outcome State Fault Refusal := .next (execute .enc encBody s)

/-- DEC (R170). -/
def execDec (s : State) : Host.Outcome State Fault Refusal := .next (execute .dec decBody s)

/-- CHECK (R174). -/
def execCheck (s : State) : Host.Outcome State Fault Refusal := .next (execute .check checkBody s)

/-- CTR.XCRYPT (R177). -/
def execCtrXcrypt (s : State) : Host.Outcome State Fault Refusal := .next (execute .ctrXcrypt ctrBody s)

end Sys2Proof.Machine
end

