-- ==== Sys2Proof/Machine/Primitives.lean ====
section
/-! DEFINITION. XOR, BLK.ENC, BLK.DEC (40_primitives.md R121 to R123). -/

namespace Sys2Proof.Machine

open Sys2Proof

/-- The body of XOR (R121). -/
def xorBody (s : State) : BodyResult := .complete (xorBytes (srcBytes s) (auxBytes s)) false

/-- The body of BLK.ENC (R122). -/
def blkEncBody (s : State) : BodyResult :=
  .complete (blockBytes (encBlock s.params (keyBytes s) (blockOfBytes (s.buf.readBytes s.src.toNat 16)))) false

/-- The body of BLK.DEC (R123). -/
def blkDecBody (s : State) : BodyResult :=
  .complete (blockBytes (decBlock s.params (keyBytes s) (blockOfBytes (s.buf.readBytes s.src.toNat 16)))) false

/-- XOR (R121). -/
def execXor (s : State) : Host.Outcome State Fault Refusal := .next (execute .xor xorBody s)

/-- BLK.ENC (R122). -/
def execBlkEnc (s : State) : Host.Outcome State Fault Refusal := .next (execute .blkEnc blkEncBody s)

/-- BLK.DEC (R123). -/
def execBlkDec (s : State) : Host.Outcome State Fault Refusal := .next (execute .blkDec blkDecBody s)

end Sys2Proof.Machine
end

