-- ==== Sys2Proof/Machine/HostAccess.lean ====
section
/-! DEFINITION. What the Host and the platform do to BCME: register accesses (10_state.md R22 to R41), BUF accesses
(20_memory.md R63 to R65), the platform's address map (R72), reset (70_reset_and_hazards.md R230). -/

namespace Sys2Proof.Machine

open Sys2Proof

/-- The register at slot `n`, that is at offset `4n` (R22). -/
def regOfSlot (n : Nat) : Reg :=
  match n with
  | 0 => .ctrl
  | 1 => .status
  | 2 => .cmd
  | 3 => .outLen
  | 4 => .src
  | 5 => .len
  | 6 => .dst
  | 7 => .aux
  | 8 => .auxLen
  | 9 => .info
  | 10 => .memSize
  | 16 => .iv 0
  | 17 => .iv 1
  | 18 => .iv 2
  | 19 => .iv 3
  | 20 => .nonceLo
  | 21 => .nonceHi
  | n => if h : 32 ≤ n ∧ n < 48 then .key ⟨n - 32, by omega⟩ else .reserved

/-- The offset of CMD (R22). -/
def cmdOffset : Nat := 0x008

/-- The value INFO reads (R32). -/
def infoWord (p : Params) : Word := BitVec.ofNat 32 (16 + p.keyBytes * 2 ^ 8)

/-- The value MEMSIZE reads (R33). -/
def memSizeWord (p : Params) : Word := BitVec.ofNat 32 p.memBytes

/-- The value CTRL reads: `zext_32(KEYLOCK << 8 | MODE)` (R24). -/
def ctrlWord (s : State) : Word := flagAt 8 s.keyLock ||| s.mode.setWidth 32

/-- The value a Host read of a register returns (R22 to R40). -/
def regRead (r : Reg) (s : State) : Word :=
  match r with
  | .ctrl => ctrlWord s
  | .status => statusWord s
  | .cmd => 0
  | .outLen => s.outLen
  | .src => s.src
  | .len => s.len
  | .dst => s.dst
  | .aux => s.aux
  | .auxLen => s.auxLen
  | .info => infoWord s.params
  | .memSize => memSizeWord s.params
  | .iv _ => 0
  | .nonceLo => 0
  | .nonceHi => 0
  | .key _ => 0
  | .reserved => 0

/-- A Host write of CTRL: `MODE <- v[1:0]; if v[8] = 1 then KEYLOCK <- 1` (R24). -/
def writeCtrl (v : Word) (s : State) : State :=
  { s with mode := v.extractLsb' 0 2, keyLock := s.keyLock || v.getLsbD 8 }

/-- A Host write of KEYk: stored when `k < KEY_WORDS` and KEYLOCK = 0, ignored otherwise (R37, R26). -/
def writeKey (k : Fin 16) (v : Word) (s : State) : State :=
  if k.val < s.params.keyWords ∧ s.keyLock = false then
    { s with key := s.key.set k v, keyMask := setMaskBit s.keyMask k }
  else s

/-- A Host write of a register but CMD, whose write is a command (R22 to R40). -/
def regWrite (r : Reg) (v : Word) (s : State) : State :=
  match r with
  | .ctrl => writeCtrl v s
  | .status => s
  | .cmd => s
  | .outLen => s
  | .src => { s with src := v }
  | .len => { s with len := v }
  | .dst => { s with dst := v }
  | .aux => { s with aux := v }
  | .auxLen => { s with auxLen := v }
  | .info => s
  | .memSize => s
  | .iv k => { s with iv := s.iv.set k v, ivMask := setMaskBit s.ivMask k }
  | .nonceLo => { s with nonceLo := v, nonceMask := setMaskBit s.nonceMask 0 }
  | .nonceHi => { s with nonceHi := v, nonceMask := setMaskBit s.nonceMask 1 }
  | .key k => writeKey k v s
  | .reserved => s

/-- The value a Host read of `w` bytes of BUF returns, little-endian (R63). -/
def bufRead (w a : Nat) (s : State) : Word := BitVec.ofNat 32 (leValue (s.buf.readBytes a w))

/-- A Host write of `w` bytes of BUF, little-endian (R63). -/
def bufWrite (w a : Nat) (v : Word) (s : State) : State :=
  { s with buf := s.buf.writeBytes a (wordBytes w v) }

/-- Reset (R230, R45): every piece of state to its reset value, the contents R45 leaves unspecified to the draw.
The parameters, the events still to come and the values already read are no state of BCME. (log 16) -/
def applyReset (d : ResetDraw) (s : State) : State :=
  { State.afterReset s.params d.iv d.nonceLo d.nonceHi d.key (Memory.ofCells s.params.memBytes d.buf) with
    pending := s.pending, results := s.results }

/-- An event that BCME takes, with its registers named. -/
inductive Action where
  /-- a write of CMD: run the command `v` (R30) -/
  | command (v : Word)
  | readReg (r : Reg)
  | writeReg (r : Reg) (v : Word)
  | readBuf (w a : Nat)
  | writeBuf (w a : Nat) (v : Word)
  | reset (d : ResetDraw)
deriving DecidableEq, Repr

/-- An access to the register space is taken when it is 32 bits wide, aligned and below 0x100 (R64). -/
def takeReg (offset : Nat) (acc : Access) : Except Refusal Action :=
  if offset % 4 = 0 ∧ offset < 0x100 then
    match acc with
    | .read 4 => .ok (.readReg (regOfSlot (offset / 4)))
    | .write 4 v => .ok (if offset = cmdOffset then .command v else .writeReg (regOfSlot (offset / 4)) v)
    | _ => .error .registerAccessNotTaken
  else .error .registerAccessNotTaken

/-- The widths, alignment and bound of a Host access to BUF (R63). -/
def bufAccessTaken (p : Params) (w a : Nat) : Bool :=
  (w == 1 || w == 2 || w == 4) && a % w == 0 && (a + w ≤ p.memBytes : Bool)

/-- A Host access to BUF (R63). -/
def takeBuf (p : Params) (a : Nat) (acc : Access) : Except Refusal Action :=
  match acc with
  | .read w => if bufAccessTaken p w a then .ok (.readBuf w a) else .error .bufferAccessNotTaken
  | .write w v => if bufAccessTaken p w a then .ok (.writeBuf w a v) else .error .bufferAccessNotTaken

/-- A Host access through the platform's address map: REG_BASE and BUF_BASE place the two spaces (R7, R72). (log 9) -/
def takeBus (p : Params) (h : Nat) (acc : Access) : Except Refusal Action :=
  let inReg : Bool := p.regBase ≤ h && h < p.regBase + 0x100
  let inBuf : Bool := p.bufBase ≤ h && h < p.bufBase + p.memBytes
  match inReg, inBuf with
  | true, false => takeReg (h - p.regBase) acc
  | false, true => takeBuf p (h - p.bufBase) acc
  | true, true => .error .busAddressAmbiguous
  | false, false => .error .busAddressElsewhere

/-- What an event is to BCME, or why it is not taken. -/
def take (p : Params) (ev : HostEvent) : Except Refusal Action :=
  match ev with
  | .reg offset acc => takeReg offset acc
  | .buf a acc => takeBuf p a acc
  | .bus h acc => takeBus p h acc
  | .reset d => .ok (.reset d)

/-- A value a Host read returns, added to the results. (log 18) -/
def deliver (v : Word) (s : State) : State := { s with results := s.results ++ [v] }

/-- An illegal command word: ILLEGAL_COMMAND (R94, R202). -/
def illegalCommand (s : State) : State := raiseError .illegalCommand s

/-- What an action other than a command does. -/
def perform (a : Action) (s : State) : State :=
  match a with
  | .command _ => s
  | .readReg r => deliver (regRead r s) s
  | .writeReg r v => regWrite r v s
  | .readBuf w a => deliver (bufRead w a s) s
  | .writeBuf w a v => bufWrite w a v s
  | .reset d => applyReset d s

end Sys2Proof.Machine
end

