-- ==== Sys2Proof/Machine/Step.lean ====
section
/-! DEFINITION. One step: the next event of the Host or the platform (00_scope.md R10; 20_memory.md R68, R74). -/

namespace Sys2Proof.Machine

open Sys2Proof

/-- A Host write of `v` to CMD (R30, R200). -/
def runCommand (v : Word) (s : State) : Host.Outcome State Fault Refusal :=
  match decode v with
  | .ok i => exec i s
  | .error _ => .next (illegalCommand s)

/-- An event that BCME takes. -/
def act (a : Action) (s : State) : Host.Outcome State Fault Refusal :=
  match a with
  | .command v => runCommand v s
  | a => .next (perform a s)

/-- The next event, performed whole before the one after it (R74). With none to perform nothing happens: the Engine
never starts work on its own (R10), and nothing but Host accesses and reset changes state (R230). (log 3) -/
def step (s : State) : Host.Outcome State Fault Refusal :=
  match s.pending with
  | [] => .next s
  | ev :: rest =>
    match take s.params ev with
    | .ok a => act a { s with pending := rest }
    | .error r => .refused r

/-- `s` with a Host write of the command word to CMD as its next event. BCME fetches nothing (R42): this is where a
command comes from. (log 2) -/
def State.withFetchWord (s : State) (nbits w : Nat) : State :=
  { s with pending := .reg cmdOffset (.write 4 (BitVec.ofNat 32 (w % 2 ^ nbits))) :: s.pending }

end Sys2Proof.Machine
end

