-- ==== Sys2Proof/Machine/HostAsm.lean ====
section
/-! DEFINITION. Host assembly: the statements of a host program and the Host accesses they stand for (30_encoding.md
R98, R99). A notation for what the Host does; no rule of the machine depends on it (D53). -/

namespace Sys2Proof.Machine

open Sys2Proof

/-- The offset of a named register (R22); a reserved slot has no name. -/
def regOffset : Reg → Option Nat
  | .ctrl => some 0x000
  | .status => some 0x004
  | .cmd => some 0x008
  | .outLen => some 0x00C
  | .src => some 0x010
  | .len => some 0x014
  | .dst => some 0x018
  | .aux => some 0x01C
  | .auxLen => some 0x020
  | .info => some 0x024
  | .memSize => some 0x028
  | .iv k => some (0x040 + 4 * k.val)
  | .nonceLo => some 0x050
  | .nonceHi => some 0x054
  | .key k => some (0x080 + 4 * k.val)
  | .reserved => none

/-- A register operand: a name of R22, or a hex offset (R98). -/
inductive RegOperand where
  | name (r : Reg)
  | hex (offset : Nat)
deriving DecidableEq, Repr

/-- The offset a register operand stands for. -/
def RegOperand.offset : RegOperand → Option Nat
  | .name r => regOffset r
  | .hex o => some o

/-- The mode names of the pseudo-statements (R99). -/
inductive AsmMode where
  | ecb
  | cbc
  | ctr
deriving DecidableEq, Repr

/-- `m = 0, 1, 2` (R99). -/
def AsmMode.value : AsmMode → Word
  | .ecb => 0
  | .cbc => 1
  | .ctr => 2

/-- The statements of R98 and the pseudo-statements of R99. -/
inductive Stmt where
  | wr (r : RegOperand) (imm : Word)
  | rd (r : RegOperand)
  | sb (addr : Nat) (imm : BitVec 8)
  | sh (addr : Nat) (imm : BitVec 16)
  | sw (addr : Nat) (imm : Word)
  | lb (addr : Nat)
  | lh (addr : Nat)
  | lw (addr : Nat)
  | cmd (i : Instr)
  | mode (m : AsmMode)
  | lock (m : AsmMode)
  | key (h : List Byte)
  | iv (h : List Byte)
  | nonce (n : BitVec 64)
  | args (src len dst : Word)
  | args2 (aux auxLen : Word)
  | fill (addr : Nat) (h : List Byte)
  | ecbEnc (src len dst : Word)
  | ecbDec (src len dst : Word)
  | cbcEnc (src len dst : Word) (iv : List Byte)
  | cbcDec (src len dst : Word) (iv : List Byte)
  | cbcCheck (src len : Word) (iv : List Byte)
  | ctrX (src len dst : Word) (n : BitVec 64)
deriving DecidableEq, Repr

/-- A 32-bit write of a register by its offset. -/
def wrAt (offset : Nat) (v : Word) : HostEvent := .reg offset (.write 4 v)

/-- `wk = h[4k] + h[4k+1]*2^8 + h[4k+2]*2^16 + h[4k+3]*2^24` (R99). -/
def hexWord (h : List Byte) (k : Nat) : Word := BitVec.ofNat 32 (leValue (slice h (4 * k) (4 * k + 4)))

/-- Writes of the `n` words of a hex string from an offset on (R99). -/
def wrWords (offset n : Nat) (h : List Byte) : List HostEvent :=
  (List.range n).map fun k => wrAt (offset + 4 * k) (hexWord h k)

/-- `mode m` (R99). -/
def expandMode (m : AsmMode) : List HostEvent := [wrAt 0x000 m.value]

/-- `iv "h"`, 32 hex digits (R99). -/
def expandIv (h : List Byte) : Option (List HostEvent) :=
  if h.length = 16 then some (wrWords 0x040 4 h) else none

/-- `nonce imm64` (R99). -/
def expandNonce (n : BitVec 64) : List HostEvent :=
  [wrAt 0x050 (BitVec.ofNat 32 (n.toNat % 2 ^ 32)), wrAt 0x054 (BitVec.ofNat 32 (n.toNat / 2 ^ 32))]

/-- `args src, len, dst` (R99). -/
def expandArgs (src len dst : Word) : List HostEvent := [wrAt 0x010 src, wrAt 0x014 len, wrAt 0x018 dst]

/-- `cmd ...`: a write of the command's word to CMD, rejected when its BS is out of 1..255 (R98). -/
def expandCmd (i : Instr) : Option (List HostEvent) :=
  if i.wellFormed then some [wrAt cmdOffset (encode i)] else none

/-- The Host accesses a statement stands for; `none` when the assembler rejects it (R98, R99; log 15). -/
def expand (p : Params) (st : Stmt) : Option (List HostEvent) :=
  match st with
  | .wr r imm => r.offset.map fun o => [wrAt o imm]
  | .rd r => r.offset.map fun o => [.reg o (.read 4)]
  | .sb a imm => some [.buf a (.write 1 (imm.setWidth 32))]
  | .sh a imm => some [.buf a (.write 2 (imm.setWidth 32))]
  | .sw a imm => some [.buf a (.write 4 imm)]
  | .lb a => some [.buf a (.read 1)]
  | .lh a => some [.buf a (.read 2)]
  | .lw a => some [.buf a (.read 4)]
  | .cmd i => expandCmd i
  | .mode m => some (expandMode m)
  | .lock m => some [wrAt 0x000 (0x100 + m.value)]
  | .key h => if h.length = p.keyBytes then some (wrWords 0x080 p.keyWords h) else none
  | .iv h => expandIv h
  | .nonce n => some (expandNonce n)
  | .args src len dst => some (expandArgs src len dst)
  | .args2 aux auxLen => some [wrAt 0x01C aux, wrAt 0x020 auxLen]
  | .fill a h => some ((List.range h.length).map fun i => .buf (a + i) (.write 1 ((h.getD i 0).setWidth 32)))
  | .ecbEnc src len dst => (expandCmd .enc).map fun c => expandMode .ecb ++ expandArgs src len dst ++ c
  | .ecbDec src len dst => (expandCmd .dec).map fun c => expandMode .ecb ++ expandArgs src len dst ++ c
  | .cbcEnc src len dst h => do
    let v ← expandIv h
    let c ← expandCmd .enc
    some (expandMode .cbc ++ v ++ expandArgs src len dst ++ c)
  | .cbcDec src len dst h => do
    let v ← expandIv h
    let c ← expandCmd .dec
    some (expandMode .cbc ++ v ++ expandArgs src len dst ++ c)
  | .cbcCheck src len h => do
    let v ← expandIv h
    let c ← expandCmd .check
    some (expandMode .cbc ++ v ++ [wrAt 0x010 src, wrAt 0x014 len] ++ c)
  | .ctrX src len dst n =>
    (expandCmd .ctrXcrypt).map fun c => expandMode .ctr ++ expandNonce n ++ expandArgs src len dst ++ c

/-- A host program: its statements in order, one Host access after the other (R98, R100). -/
def assemble (p : Params) (prog : List Stmt) : Option (List HostEvent) :=
  (prog.mapM (expand p)).map List.flatten

end Sys2Proof.Machine
end

