-- ==== Sys2Proof/Safety.lean ====
section
/-! DEFINITION. What a good state of BCME is, what a command leaves alone, and when two states differ only in what
cannot be seen: the terms the statements use. -/

namespace Sys2Proof.Machine

open Sys2Proof

/-- BUF is in its canonical form and holds no byte past its end (R44). -/
abbrev State.BufInv (s : State) : Prop :=
  s.buf.wf = true ∧ ∀ c ∈ s.buf, c.1 < s.params.memBytes

/-- STATUS: ERR = 1 exactly when ERRCODE != 0 (R27), the codes 8 to 15 never occur (R201, I16), and PAD_OK = 1 only after
a success (R209). -/
abbrev State.StatusInv (s : State) : Prop :=
  (s.err = true ↔ s.errCode ≠ 0) ∧ s.errCode.toNat ≤ 7 ∧ (s.padOk = true → s.err = false)

/-- OUT_LEN counts bytes of BUF (R31), and an error leaves it 0 (R209). -/
abbrev State.OutLenInv (s : State) : Prop :=
  s.outLen.toNat ≤ s.params.memBytes ∧ (s.err = true → s.outLen = 0)

/-- KEY_WMASK has KEY_WORDS bits (R41). -/
abbrev State.KeyMaskInv (s : State) : Prop := s.keyMask.toNat < 2 ^ s.params.keyWords

/-- The invariant of the machine, with the parameters in the ranges of R7. -/
abbrev State.Inv (s : State) : Prop :=
  s.params.Legal ∧ s.BufInv ∧ s.StatusInv ∧ s.OutLenInv ∧ s.KeyMaskInv

/-- What no command writes: every register but STATUS, OUT_LEN and the IV and nonce masks (R23, R182), and the model's
own fields. -/
abbrev State.KeepsRegisters (s t : State) : Prop :=
  t.mode = s.mode ∧ t.keyLock = s.keyLock ∧
  t.src = s.src ∧ t.len = s.len ∧ t.dst = s.dst ∧ t.aux = s.aux ∧ t.auxLen = s.auxLen ∧
  t.iv = s.iv ∧ t.nonceLo = s.nonceLo ∧ t.nonceHi = s.nonceHi ∧ t.key = s.key ∧ t.keyMask = s.keyMask ∧
  t.params = s.params ∧ t.pending = s.pending ∧ t.results = s.results

/-- The state an error completion with code `c` leaves, written out (R209). -/
abbrev State.errored (s : State) (c : BitVec 4) : State :=
  { s with err := true, errCode := c, padOk := false, outLen := 0 }

/-- The state a success completion leaves, written out: `out` at DST, OUT_LEN its length, no error, PAD_OK `p` (R210). -/
abbrev State.succeeded (s : State) (out : List Byte) (p : Bool) : State :=
  { s with
    buf := s.buf.writeBytes s.dst.toNat out, outLen := BitVec.ofNat 32 out.length
    err := false, errCode := 0, padOk := p }

/-- `(SRC, LEN)` lies inside BUF (R62, R204). -/
abbrev State.SrcFits (s : State) : Prop := s.src.toNat + s.len.toNat ≤ s.params.memBytes

/-- `(AUX, AUX_LEN)` lies inside BUF (R62, R204). -/
abbrev State.AuxFits (s : State) : Prop := s.aux.toNat + s.auxLen.toNat ≤ s.params.memBytes

/-- `(DST, n)` lies inside BUF (R62, R204). -/
abbrev State.DstFits (s : State) (n : Nat) : Prop := s.dst.toNat + n ≤ s.params.memBytes

/-- Every key word in use has been written since reset (R28). -/
abbrev State.KeyLoaded (s : State) : Prop := s.keyMask.toNat = 2 ^ s.params.keyWords - 1

/-- All four IV words have been written since they were last consumed (R28). -/
abbrev State.IvValid (s : State) : Prop := s.ivMask = 0b1111

/-- Both nonce words have been written since they were last consumed (R28). -/
abbrev State.NonceValid (s : State) : Prop := s.nonceMask = 0b11

/-- Two states that are equal but for the contents of the write-only registers IV, NONCE and KEY (R39). -/
abbrev State.EqualButSecrets (s t : State) : Prop :=
  t = { s with iv := t.iv, nonceLo := t.nonceLo, nonceHi := t.nonceHi, key := t.key }

/-- Two states that are equal but for IV, NONCE and KEY words that have not been written since reset or since they were
consumed: words that R45 and R41 call unspecified or no longer valid. -/
abbrev State.EqualButUnwritten (s t : State) : Prop :=
  s.EqualButSecrets t ∧
  (∀ k : Fin 4, s.ivMask.getLsbD k = true → t.iv[k] = s.iv[k]) ∧
  (s.nonceMask.getLsbD 0 = true → t.nonceLo = s.nonceLo) ∧
  (s.nonceMask.getLsbD 1 = true → t.nonceHi = s.nonceHi) ∧
  (∀ k : Fin 16, s.keyMask.getLsbD k = true → t.key[k] = s.key[k])

/-- The next event is not a reset. -/
abbrev State.NextIsNoReset (s : State) : Prop :=
  ∀ d rest, s.pending ≠ .reset d :: rest

end Sys2Proof.Machine
end

