-- ==== Sys2Proof/Certificates/Slice0/Obligations.lean ====
section
/-! DEFINITION. The statements about BCME, from the numbered rules of the spec. -/

open Sys2Proof Sys2Proof.Machine

/-! ### The command word (30_encoding.md) -/

/-- R94: a word decodes exactly when it meets the five conditions of `Legal(v)`, and a Host write of any other word to
CMD ends with ILLEGAL_COMMAND and changes nothing but STATUS and OUT_LEN. -/
def Obligations.WordIsLegalExactlyAsR94Says : Prop :=
  (∀ v : Word, (∃ i, decode v = .ok i) ↔
    v.extractLsb' 16 16 = 0 ∧ v.extractLsb' 4 4 = 0 ∧
    (1 ≤ (v.extractLsb' 0 4).toNat ∧ (v.extractLsb' 0 4).toNat ≤ 9) ∧
    ((v.extractLsb' 0 4 = 1 ∨ v.extractLsb' 0 4 = 2) → v.extractLsb' 8 8 ≠ 0) ∧
    (¬ (v.extractLsb' 0 4 = 1 ∨ v.extractLsb' 0 4 = 2) → v.extractLsb' 8 8 = 0)) ∧
  (∀ (s : State) (rest : List HostEvent) (v : Word),
    s.pending = .reg 0x008 (.write 4 v) :: rest → (∀ i, decode v ≠ .ok i) →
    step s = .next ({ s with pending := rest }.errored 5))

/-- Decoding the word of a well-formed command gives the command back. -/
def Obligations.DecodeOfEncodeIsTheCommand : Prop :=
  ∀ i : Instr, i.WellFormed → decode (encode i) = .ok i

/-- R96: decoding is total; a legal word decodes to the command its OP names with the BS it holds; no two words decode
to one command; each allowed command has exactly the word `(BS << 8) | OP(cmd)`. -/
def Obligations.EachCommandHasExactlyOneWord : Prop :=
  (∀ v : Word, legal v = false → ∃ e, decode v = .error e) ∧
  (∀ v : Word, legal v = true → ∃ i, decode v = .ok i ∧ i.WellFormed ∧
    i.opcode = (v.extractLsb' 0 4).toNat ∧ i.blockSize = v.extractLsb' 8 8) ∧
  (∀ (v w : Word) (i : Instr), decode v = .ok i → decode w = .ok i → v = w) ∧
  (∀ i : Instr, i.WellFormed → ∀ v : Word,
    decode v = .ok i ↔ v = (i.blockSize.setWidth 32 <<< 8) ||| BitVec.ofNat 32 i.opcode)

/-- R97: the legal words, in full: 517 of them. -/
def Obligations.LegalWordsAreTheListOfR97 : Prop :=
  (∀ b : BitVec 8, b ≠ 0 → decode ((b.setWidth 32 <<< 8) ||| 0x00000001) = .ok (.pad b)) ∧
  (∀ b : BitVec 8, b ≠ 0 → decode ((b.setWidth 32 <<< 8) ||| 0x00000002) = .ok (.unpad b)) ∧
  decode 0x00001001 = .ok (.pad 16) ∧ decode 0x00001002 = .ok (.unpad 16) ∧
  decode 0x00000003 = .ok .xor ∧ decode 0x00000004 = .ok .blkEnc ∧ decode 0x00000005 = .ok .blkDec ∧
  decode 0x00000006 = .ok .enc ∧ decode 0x00000007 = .ok .dec ∧ decode 0x00000008 = .ok .check ∧
  decode 0x00000009 = .ok .ctrXcrypt ∧
  legalWords.length = 517 ∧ legalWords.Nodup ∧ ∀ v : Word, (∃ i, decode v = .ok i) ↔ v ∈ legalWords

/-- A few words of the table, decoded; and a few near them that are illegal (R92, R94). -/
def Obligations.SampleWordsDecode : Prop :=
  decode 0x0000ff01 = .ok (.pad 255) ∧ decode 0x00000102 = .ok (.unpad 1) ∧
  decode 0x00000003 = .ok .xor ∧ decode 0x00000006 = .ok .enc ∧ decode 0x00000009 = .ok .ctrXcrypt ∧
  decode 0x00000000 = .error .reservedOp ∧ decode 0x0000000a = .error .reservedOp ∧
  decode 0x00000013 = .error .reservedBits ∧ decode 0x00010008 = .error .reservedBits ∧
  decode 0x00000001 = .error .zeroBlockSize ∧ decode 0x00001004 = .error .blockSizeOnOther

/-! ### A step -/

/-- R30: a Host write of a legal word to CMD runs the command, an illegal word takes the error completion of
ILLEGAL_COMMAND, in the one step; a Host read of CMD returns 0 and starts nothing. -/
def Obligations.StepRunsTheCommandWrittenToCmd : Prop :=
  (∀ (s : State) (rest : List HostEvent) (v : Word) (i : Instr),
    s.pending = .reg 0x008 (.write 4 v) :: rest → decode v = .ok i →
    step s = exec i { s with pending := rest }) ∧
  (∀ (s : State) (rest : List HostEvent) (v : Word) (e : Illegal),
    s.pending = .reg 0x008 (.write 4 v) :: rest → decode v = .error e →
    step s = .next ({ s with pending := rest }.errored 5)) ∧
  (∀ (s : State) (rest : List HostEvent), s.pending = .reg 0x008 (.read 4) :: rest →
    step s = .next { s with pending := rest, results := s.results ++ [0] })

/-- The model's own: a command word placed as the next event is the very next command a step runs (log 2); with no
event pending a step changes nothing (log 3). -/
def Obligations.PlacedWordRunsNextAndIdleStepChangesNothing : Prop :=
  (∀ (s : State) (w : Nat) (i : Instr), decodeTableWord 32 w = some i → step (s.withFetchWord 32 w) = exec i s) ∧
  (∀ s : State, s.pending = [] → step s = .next s)

/-- R10, R72: an access through the platform's address map is the access to the offset inside the window it falls in;
where it falls in no window or in both it is refused (log 9). -/
def Obligations.BusAccessIsTheAccessInsideItsWindow : Prop :=
  ∀ (s : State) (rest : List HostEvent) (h : Nat) (acc : Access),
    s.pending = .bus h acc :: rest →
    let inReg := s.params.regBase ≤ h ∧ h < s.params.regBase + 0x100
    let inBuf := s.params.bufBase ≤ h ∧ h < s.params.bufBase + s.params.memBytes
    (inReg → ¬ inBuf → step s = step { s with pending := .reg (h - s.params.regBase) acc :: rest }) ∧
    (¬ inReg → inBuf → step s = step { s with pending := .buf (h - s.params.bufBase) acc :: rest }) ∧
    (¬ inReg → ¬ inBuf → step s = .refused .busAddressElsewhere) ∧
    (inReg → inBuf → step s = .refused .busAddressAmbiguous)

/-- The invariant holds in `State.reset`, whose parameters and BUF contents are the model's choice (log 1, log 5). -/
def Obligations.ResetMeetsInvariant : Prop := State.reset.Inv

/-- Every step keeps the invariant (canonical BUF inside MEM_BYTES, ERR = 1 exactly when ERRCODE != 0, codes at most 7,
PAD_OK only after success, OUT_LEN within BUF and 0 after an error, KEY_WMASK of KEY_WORDS bits) and the parameters. -/
def Obligations.StepKeepsInvariant : Prop :=
  ∀ s t : State, s.Inv → step s = .next t → t.Inv ∧ t.params = s.params

/-- R231: no event but reset clears KEYLOCK or a bit of KEY_WMASK, a locked key and its mask stay as they are (R26),
and reset clears both. -/
def Obligations.OnlyResetClearsKeyLockAndKeyMask : Prop :=
  (∀ s t : State, s.NextIsNoReset → step s = .next t →
    (s.keyLock = true → t.keyLock = true ∧ t.key = s.key ∧ t.keyMask = s.keyMask) ∧
    (∀ k : Nat, s.keyMask.getLsbD k = true → t.keyMask.getLsbD k = true)) ∧
  (∀ (s : State) (d : ResetDraw) (rest : List HostEvent), s.pending = .reset d :: rest →
    ∃ t, step s = .next t ∧ t.keyLock = false ∧ t.keyMask = 0)

/-- R45, R41: IV, NONCE and KEY words that have not been written since reset or consumption cannot be observed: two
states that differ only there step to states that differ only there, or are refused alike. -/
def Obligations.UnwrittenSecretWordsAreUnobservable : Prop :=
  ∀ s t : State, s.EqualButUnwritten t →
    (∀ s', step s = .next s' → ∃ t', step t = .next t' ∧ s'.EqualButUnwritten t') ∧
    (∀ r, step s = .refused r → step t = .refused r)

/-- R39: whatever IV, NONCE and KEY hold reaches no readable register, no read result and no byte of BUF but through a
command that uses the key. -/
def Obligations.SecretsReachNothingWithoutTheCipher : Prop :=
  ∀ s t : State, s.EqualButSecrets t →
    (∀ ev rest v i, s.pending = ev :: rest → take s.params ev = .ok (.command v) → decode v = .ok i →
      needsKey i = false) →
    ∀ s', step s = .next s' → ∃ t', step t = .next t' ∧ s'.EqualButSecrets t'

/-! ### Registers (10_state.md) -/

/-- R22: what a 32-bit Host read of each offset returns, and that it changes nothing else. -/
def Obligations.RegisterReadsFollowTheMap : Prop :=
  ∀ (s : State) (rest : List HostEvent) (o : Nat),
    s.pending = .reg o (.read 4) :: rest → o % 4 = 0 → o < 0x100 →
    step s = .next { s with
      pending := rest
      results := s.results ++ [
        if o = 0x000 then BitVec.ofNat 32 (s.keyLock.toNat * 2 ^ 8 + s.mode.toNat)
        else if o = 0x004 then
          BitVec.ofNat 32 (s.err.toNat + s.errCode.toNat * 2 ^ 4 + s.padOk.toNat * 2 ^ 8 +
            (if s.KeyLoaded then 2 ^ 16 else 0) + (if s.IvValid then 2 ^ 17 else 0) +
            (if s.NonceValid then 2 ^ 18 else 0))
        else if o = 0x00C then s.outLen
        else if o = 0x010 then s.src
        else if o = 0x014 then s.len
        else if o = 0x018 then s.dst
        else if o = 0x01C then s.aux
        else if o = 0x020 then s.auxLen
        else if o = 0x024 then BitVec.ofNat 32 (16 + s.params.keyBytes * 2 ^ 8)
        else if o = 0x028 then BitVec.ofNat 32 s.params.memBytes
        else 0] }

/-- R24: what a Host write of CTRL does, what CTRL reads, and its value after reset. -/
def Obligations.CtrlWritesModeAndSetsKeyLock : Prop :=
  (∀ (s : State) (rest : List HostEvent) (v : Word), s.pending = .reg 0x000 (.write 4 v) :: rest →
    step s = .next { s with
      pending := rest, mode := v.extractLsb' 0 2, keyLock := if v.getLsbD 8 then true else s.keyLock }) ∧
  (∀ (s : State) (rest : List HostEvent), s.pending = .reg 0x000 (.read 4) :: rest →
    step s = .next { s with
      pending := rest
      results := s.results ++ [((BitVec.ofBool s.keyLock).setWidth 32 <<< 8) ||| s.mode.setWidth 32] }) ∧
  State.reset.mode = 0 ∧ State.reset.keyLock = false

/-- R23: SRC, LEN, DST, AUX and AUX_LEN store every bit written and read it back, are 0 after reset, and no command
writes them. -/
def Obligations.OperandRegistersHoldWhatTheHostWrites : Prop :=
  (∀ (s : State) (rest : List HostEvent) (v : Word),
    (s.pending = .reg 0x010 (.write 4 v) :: rest → step s = .next { s with pending := rest, src := v }) ∧
    (s.pending = .reg 0x014 (.write 4 v) :: rest → step s = .next { s with pending := rest, len := v }) ∧
    (s.pending = .reg 0x018 (.write 4 v) :: rest → step s = .next { s with pending := rest, dst := v }) ∧
    (s.pending = .reg 0x01C (.write 4 v) :: rest → step s = .next { s with pending := rest, aux := v }) ∧
    (s.pending = .reg 0x020 (.write 4 v) :: rest → step s = .next { s with pending := rest, auxLen := v })) ∧
  (∀ (s : State) (rest : List HostEvent) (o : Nat) (v : Word),
    (o = 0x010 ∧ v = s.src) ∨ (o = 0x014 ∧ v = s.len) ∨ (o = 0x018 ∧ v = s.dst) ∨ (o = 0x01C ∧ v = s.aux) ∨
      (o = 0x020 ∧ v = s.auxLen) →
    s.pending = .reg o (.read 4) :: rest →
    step s = .next { s with pending := rest, results := s.results ++ [v] }) ∧
  (∀ (s t : State) (i : Instr), exec i s = .next t →
    t.src = s.src ∧ t.len = s.len ∧ t.dst = s.dst ∧ t.aux = s.aux ∧ t.auxLen = s.auxLen) ∧
  State.reset.src = 0 ∧ State.reset.len = 0 ∧ State.reset.dst = 0 ∧ State.reset.aux = 0 ∧ State.reset.auxLen = 0

/-- R34, R36: a Host write of an IV or NONCE word stores it and sets its mask bit, and nothing else; KEYLOCK plays no
part. -/
def Obligations.IvAndNonceWritesSetTheirMaskBits : Prop :=
  ∀ (s : State) (rest : List HostEvent) (v : Word),
    (∀ k : Fin 4, s.pending = .reg (0x040 + 4 * k.val) (.write 4 v) :: rest →
      step s = .next { s with pending := rest, iv := s.iv.set k v, ivMask := s.ivMask ||| (1 <<< k.val) }) ∧
    (s.pending = .reg 0x050 (.write 4 v) :: rest →
      step s = .next { s with pending := rest, nonceLo := v, nonceMask := s.nonceMask ||| 0b01 }) ∧
    (s.pending = .reg 0x054 (.write 4 v) :: rest →
      step s = .next { s with pending := rest, nonceHi := v, nonceMask := s.nonceMask ||| 0b10 })

/-- R37, R26, R217: a Host write of a KEY word below KEY_WORDS is stored and sets its mask bit when KEYLOCK = 0; under
KEYLOCK, and at or above KEY_WORDS, it is silently ignored. -/
def Obligations.KeyWritesAreStoredUnlessLocked : Prop :=
  ∀ (s : State) (rest : List HostEvent) (v : Word) (k : Fin 16),
    s.pending = .reg (0x080 + 4 * k.val) (.write 4 v) :: rest →
    (s.keyLock = false → k.val < s.params.keyWords →
      step s = .next { s with pending := rest, key := s.key.set k v, keyMask := s.keyMask ||| (1 <<< k.val) }) ∧
    (s.keyLock = true → step s = .next { s with pending := rest }) ∧
    (s.params.keyWords ≤ k.val → step s = .next { s with pending := rest })

/-- R29: a Host write to a read-only register changes nothing, and a Host read of any register has no side effect. -/
def Obligations.ReadOnlyWritesAreIgnoredAndReadsHaveNoEffect : Prop :=
  (∀ (s : State) (rest : List HostEvent) (v : Word) (o : Nat),
    o = 0x004 ∨ o = 0x00C ∨ o = 0x024 ∨ o = 0x028 → s.pending = .reg o (.write 4 v) :: rest →
    step s = .next { s with pending := rest }) ∧
  (∀ (s : State) (rest : List HostEvent) (o : Nat), o % 4 = 0 → o < 0x100 → s.pending = .reg o (.read 4) :: rest →
    ∃ v, step s = .next { s with pending := rest, results := s.results ++ [v] })

/-- R40: reserved offsets, and KEY words at or above KEY_WORDS, read 0 and ignore writes. -/
def Obligations.ReservedOffsetsReadZeroAndIgnoreWrites : Prop :=
  ∀ (s : State) (rest : List HostEvent) (o : Nat), o % 4 = 0 →
    (0x02C ≤ o ∧ o ≤ 0x03C) ∨ (0x058 ≤ o ∧ o ≤ 0x07C) ∨ (0x0C0 ≤ o ∧ o ≤ 0x0FC) ∨
      (0x080 + 4 * s.params.keyWords ≤ o ∧ o ≤ 0x0BC) →
    (s.pending = .reg o (.read 4) :: rest →
      step s = .next { s with pending := rest, results := s.results ++ [0] }) ∧
    (∀ v, s.pending = .reg o (.write 4 v) :: rest → step s = .next { s with pending := rest })

/-- R35: the byte view of the IV; and 16 bytes written to IV0..IV3 as little-endian words are that view, and are
valid. -/
def Obligations.IvBytesAreTheWordsLittleEndian : Prop :=
  (∀ s : State, (ivBytes s).length = 16 ∧
    ∀ (k j : Fin 4), (ivBytes s)[4 * k.val + j.val]? = some (s.iv[k].extractLsb' (8 * j.val) 8)) ∧
  (∀ (s : State) (h : List Byte), h.length = 16 →
    let t := regWrite (.iv 3) (hexWord h 3) (regWrite (.iv 2) (hexWord h 2)
      (regWrite (.iv 1) (hexWord h 1) (regWrite (.iv 0) (hexWord h 0) s)))
    ivBytes t = h ∧ t.IvValid)

/-- R38: the byte view of the key; and KEY_BYTES bytes written to an unlocked BCME's KEY words are that view, and load
the key. -/
def Obligations.KeyBytesAreTheWordsLittleEndian : Prop :=
  ∀ s : State, s.params.Legal →
    (keyBytes s).length = s.params.keyBytes ∧
    (∀ (k : Fin 16) (j : Fin 4), k.val < s.params.keyWords →
      (keyBytes s)[4 * k.val + j.val]? = some (s.key[k].extractLsb' (8 * j.val) 8)) ∧
    (∀ h : List Byte, h.length = s.params.keyBytes → s.keyLock = false → s.KeyMaskInv →
      let t := ((List.finRange 16).filter fun k => k.val < s.params.keyWords).foldl
        (fun u k => regWrite (.key k) (hexWord h k.val) u) s
      keyBytes t = h ∧ t.KeyLoaded)

/-- R45: every piece of state after a reset, with any draw of BUF and of the write-only words; and the same registers in
`State.reset`. -/
def Obligations.ResetSetsEveryPieceOfState : Prop :=
  (∀ (s : State) (rest : List HostEvent) (d : ResetDraw) (f : Nat → Byte),
    s.params.Legal → s.pending = .reset d :: rest →
    d.buf = (List.range s.params.memBytes).map (fun a => (a, f a)) →
    ∃ t, step s = .next t ∧
      t.mode = 0 ∧ t.keyLock = false ∧ t.err = false ∧ t.errCode = 0 ∧ t.padOk = false ∧
      ¬ t.KeyLoaded ∧ ¬ t.IvValid ∧ ¬ t.NonceValid ∧ regRead .status t = 0 ∧ t.outLen = 0 ∧
      t.src = 0 ∧ t.len = 0 ∧ t.dst = 0 ∧ t.aux = 0 ∧ t.auxLen = 0 ∧
      t.iv = d.iv ∧ t.nonceLo = d.nonceLo ∧ t.nonceHi = d.nonceHi ∧ t.key = d.key ∧
      t.ivMask = 0 ∧ t.nonceMask = 0 ∧ t.keyMask = 0 ∧
      (∀ a, a < s.params.memBytes → t.buf.read a = f a) ∧
      t.params = s.params ∧ t.pending = rest ∧ t.results = s.results) ∧
  State.reset.mode = 0 ∧ State.reset.keyLock = false ∧ regRead .status State.reset = 0 ∧ State.reset.outLen = 0 ∧
  State.reset.src = 0 ∧ State.reset.len = 0 ∧ State.reset.dst = 0 ∧ State.reset.aux = 0 ∧ State.reset.auxLen = 0 ∧
  State.reset.ivMask = 0 ∧ State.reset.nonceMask = 0 ∧ State.reset.keyMask = 0

/-! ### Host accesses to BUF and what is refused (20_memory.md) -/

/-- R63: a Host access to BUF of width 1, 2 or 4, aligned and inside BUF, stores or returns a little-endian value and
changes nothing else; any other is refused. -/
def Obligations.HostBufAccessesAreLittleEndianOrRefused : Prop :=
  ∀ (s : State) (rest : List HostEvent) (w a : Nat) (v : Word), s.Inv →
    ((w = 1 ∨ w = 2 ∨ w = 4) ∧ a % w = 0 ∧ a + w ≤ s.params.memBytes →
      (s.pending = .buf a (.write w v) :: rest → ∃ t, step s = .next t ∧
        t = { s with buf := t.buf, pending := rest } ∧
        (∀ j, j < w → t.buf.read (a + j) = v.extractLsb' (8 * j) 8) ∧
        (∀ x, x < a ∨ a + w ≤ x → t.buf.read x = s.buf.read x)) ∧
      (s.pending = .buf a (.read w) :: rest → step s = .next { s with
        pending := rest
        results := s.results ++
          [BitVec.ofNat 32 (((List.range w).map fun j => (s.buf.read (a + j)).toNat * 2 ^ (8 * j)).sum)] })) ∧
    (¬ ((w = 1 ∨ w = 2 ∨ w = 4) ∧ a % w = 0 ∧ a + w ≤ s.params.memBytes) →
      (s.pending = .buf a (.write w v) :: rest → step s = .refused .bufferAccessNotTaken) ∧
      (s.pending = .buf a (.read w) :: rest → step s = .refused .bufferAccessNotTaken))

/-- R65: a narrower read sees the bytes a wider write left, little-endian. -/
def Obligations.NarrowReadsSeeTheBytesOfWideWrites : Prop :=
  ∀ (s : State) (a : Nat) (v : Word), s.Inv → a % 4 = 0 → a + 4 ≤ s.params.memBytes →
    (∀ j : Fin 4, bufRead 1 (a + j.val) (bufWrite 4 a v s) = (v.extractLsb' (8 * j.val) 8).setWidth 32) ∧
    bufRead 2 a (bufWrite 4 a v s) = (v.extractLsb' 0 16).setWidth 32 ∧
    bufRead 2 (a + 2) (bufWrite 4 a v s) = (v.extractLsb' 16 16).setWidth 32 ∧
    bufRead 4 a (bufWrite 4 a v s) = v

/-- R64: a register access that is 32 bits wide, aligned and below 0x100 is taken; any other is refused. -/
def Obligations.RegisterAccessesAreWordsOrRefused : Prop :=
  ∀ (s : State) (rest : List HostEvent) (w o : Nat) (v : Word),
    s.pending = .reg o (.read w) :: rest ∨ s.pending = .reg o (.write w v) :: rest →
    (w = 4 ∧ o % 4 = 0 ∧ o < 0x100 → ∃ t, step s = .next t) ∧
    (w ≠ 4 ∨ o % 4 ≠ 0 ∨ 0x100 ≤ o → step s = .refused .registerAccessNotTaken)

/-- R66: the counter block of keystream block `i`, byte by byte, and that the first block has counter 0. -/
def Obligations.CounterBlockIsNonceThenCounterLittleEndian : Prop :=
  (∀ (s : State) (i : Nat),
    (∀ j : Fin 4, (counterBlock (nonceVal s) i)[j.val] = s.nonceLo.extractLsb' (8 * j.val) 8) ∧
    (∀ j : Fin 4, (counterBlock (nonceVal s) i)[4 + j.val] = s.nonceHi.extractLsb' (8 * j.val) 8) ∧
    (∀ j : Fin 8, (counterBlock (nonceVal s) i)[8 + j.val] =
      BitVec.ofNat 8 (i % 2 ^ 64 / 2 ^ (8 * j.val) % 256))) ∧
  (∀ (p : Params) (k : List Byte) (nonce m : Nat),
    (keystream p k nonce (m + 1)).take 16 = blockBytes (encBlock p k (counterBlock nonce 0)))

/-! ### The command procedure (60_exceptions.md) -/

/-- R215: whatever the word and the state, a command answers a next state. -/
def Obligations.NoCommandStopsTheEngine : Prop :=
  (∀ (v : Word) (s : State), ∃ t, runCommand v s = .next t) ∧ ∀ (i : Instr) (s : State), ∃ t, exec i s = .next t

/-- R23, R182, R213: no command writes CTRL, an operand register, an IV, NONCE or KEY word or KEY_WMASK, and none touches
what the Host has still to do or has read; it writes the IV and nonce masks only to clear them. -/
def Obligations.CommandsKeepAllOtherRegisters : Prop :=
  ∀ (i : Instr) (s t : State), exec i s = .next t →
    s.KeepsRegisters t ∧ (t.ivMask = s.ivMask ∨ t.ivMask = 0) ∧ (t.nonceMask = s.nonceMask ∨ t.nonceMask = 0)

/-- R70: a command writes no byte outside `[DST, DST + OUT_LEN)`, and none at all when it ends in an error or is CHECK;
and bytes outside its source (and, for XOR, its AUX range) have no part in what it does. -/
def Obligations.CommandsTouchOnlyTheirRanges : Prop :=
  (∀ (i : Instr) (s t : State), s.Inv → exec i s = .next t →
    (∀ a, a < s.dst.toNat ∨ s.dst.toNat + t.outLen.toNat ≤ a → t.buf.read a = s.buf.read a) ∧
    (t.err = true ∨ i = .check → t.buf = s.buf)) ∧
  (∀ (i : Instr) (s t : State) (b : Memory), s.Inv → b.wf = true →
    (∀ a, s.src.toNat ≤ a → a < s.src.toNat + s.len.toNat → b.read a = s.buf.read a) →
    (i = .xor → ∀ a, s.aux.toNat ≤ a → a < s.aux.toNat + s.auxLen.toNat → b.read a = s.buf.read a) →
    exec i s = .next t →
    ∃ t', exec i { s with buf := b } = .next t' ∧ t' = { t with buf := t'.buf } ∧
      ∀ a, s.dst.toNat ≤ a → a < s.dst.toNat + t.outLen.toNat → t'.buf.read a = t.buf.read a)

/-- R211 with R203 to R206: the checks of a legal command in their order, each with its cause and its code, and the
error completion the first failing one ends in; a command that passes them all succeeds or ends in INVALID_PADDING. -/
def Obligations.FirstFailingCheckDecidesTheError : Prop :=
  ∀ (i : Instr) (s : State), i.WellFormed →
    let badMode := ((i = .enc ∨ i = .dec) ∧ s.mode = 3) ∨ (i = .check ∧ (s.mode = 2 ∨ s.mode = 3)) ∨
      (i = .ctrXcrypt ∧ s.mode ≠ 2)
    let most := match i with
      | .pad bs => s.len.toNat + (bs.toNat - s.len.toNat % bs.toNat)
      | .blkEnc => 16
      | .blkDec => 16
      | .enc => if s.mode = 0 ∨ s.mode = 1 then s.len.toNat + (16 - s.len.toNat % 16) else s.len.toNat
      | _ => s.len.toNat
    let badRange := ¬ s.SrcFits ∨ (i = .xor ∧ ¬ s.AuxFits) ∨ (i ≠ .check ∧ ¬ s.DstFits most)
    let badLength := (i = .xor ∧ s.len ≠ s.auxLen) ∨ ((i = .blkEnc ∨ i = .blkDec) ∧ s.len ≠ 16)
    let usesKey := i = .blkEnc ∨ i = .blkDec ∨ i = .enc ∨ i = .dec ∨ i = .check ∨ i = .ctrXcrypt
    let missing := ((i = .enc ∨ i = .dec ∨ i = .check) ∧ s.mode = 1 ∧ ¬ s.IvValid) ∨
      ((((i = .enc ∨ i = .dec) ∧ s.mode = 2) ∨ i = .ctrXcrypt) ∧ ¬ s.NonceValid)
    (badMode → exec i s = .next (s.errored 4)) ∧
    (¬ badMode → badRange → exec i s = .next (s.errored 7)) ∧
    (¬ badMode → ¬ badRange → badLength → exec i s = .next (s.errored 1)) ∧
    (¬ badMode → ¬ badRange → ¬ badLength → usesKey → ¬ s.KeyLoaded → exec i s = .next (s.errored 6)) ∧
    (¬ badMode → ¬ badRange → ¬ badLength → (usesKey → s.KeyLoaded) → missing → exec i s = .next (s.errored 3)) ∧
    (¬ badMode → ¬ badRange → ¬ badLength → (usesKey → s.KeyLoaded) → ¬ missing →
      ∃ t, exec i s = .next t ∧ ((t.err = false ∧ t.errCode = 0) ∨ (t.err = true ∧ t.errCode = 2)))

/-- R209: an error completion sets ERR, ERRCODE, PAD_OK 0 and OUT_LEN 0 and changes nothing else, but for the IV or
nonce that a command consumed before it ended in INVALID_PADDING, which stays consumed. -/
def Obligations.ErrorsArePrecise : Prop :=
  (∀ (i : Instr) (s t : State), exec i s = .next t → t.err = true →
    (t.errCode ≠ 2 → t = s.errored t.errCode) ∧
    (t.errCode = 2 → t = { s with
      err := true, errCode := 2, padOk := false, outLen := 0
      ivMask := if (i = .enc ∨ i = .dec ∨ i = .check) ∧ s.mode = 1 then 0 else s.ivMask
      nonceMask := if ((i = .enc ∨ i = .dec) ∧ s.mode = 2) ∨ i = .ctrXcrypt then 0 else s.nonceMask })) ∧
  (∀ (v : Word) (s : State), (∀ i, decode v ≠ .ok i) → runCommand v s = .next (s.errored 5))

/-- R207, R235: a command that passes step 6 consumes the IV or the nonce it needs, whatever its outcome, and nothing
else; a command that ends before does not; the words stay. -/
def Obligations.IvAndNonceAreSingleUse : Prop :=
  ∀ (i : Instr) (s t : State), exec i s = .next t →
    (t.err = false ∨ t.errCode = 2 →
      t.ivMask = (if (i = .enc ∨ i = .dec ∨ i = .check) ∧ s.mode = 1 then 0 else s.ivMask) ∧
      t.nonceMask = (if ((i = .enc ∨ i = .dec) ∧ s.mode = 2) ∨ i = .ctrXcrypt then 0 else s.nonceMask) ∧
      ((i = .enc ∨ i = .dec ∨ i = .check) ∧ s.mode = 1 → s.IvValid) ∧
      (((i = .enc ∨ i = .dec) ∧ s.mode = 2) ∨ i = .ctrXcrypt → s.NonceValid)) ∧
    (t.err = true → t.errCode ≠ 2 → t.ivMask = s.ivMask ∧ t.nonceMask = s.nonceMask) ∧
    t.iv = s.iv ∧ t.nonceLo = s.nonceLo ∧ t.nonceHi = s.nonceHi

/-- R210: what a command writes is never longer than MaxOut, so it lies inside BUF. -/
def Obligations.OutputNeverExceedsMaxOut : Prop :=
  ∀ (i : Instr) (s t : State), s.Inv → exec i s = .next t →
    t.outLen.toNat ≤ maxOut i s.mode s.len.toNat ∧
    (t.err = false → i ≠ .check → s.dst.toNat + t.outLen.toNat ≤ s.params.memBytes)

/-! ### XOR and the block commands (40_primitives.md) -/

/-- R121: XOR writes the bytewise exclusive-or of its operands at DST, and changes nothing else but STATUS and
OUT_LEN. -/
def Obligations.XorWritesTheExclusiveOr : Prop :=
  ∀ s : State, s.Inv → s.SrcFits → s.AuxFits → s.DstFits s.len.toNat → s.len = s.auxLen →
    ∃ t, exec .xor s = .next t ∧
      t = { s with buf := t.buf, outLen := s.len, err := false, errCode := 0, padOk := false } ∧
      (∀ j, j < s.len.toNat →
        t.buf.read (s.dst.toNat + j) = s.buf.read (s.src.toNat + j) ^^^ s.buf.read (s.aux.toNat + j)) ∧
      (∀ a, a < s.dst.toNat ∨ s.dst.toNat + s.len.toNat ≤ a → t.buf.read a = s.buf.read a)

/-- R122: BLK.ENC writes `E(K, x)` of its block at DST. -/
def Obligations.BlkEncWritesTheEncryptedBlock : Prop :=
  ∀ s : State, s.Inv → s.SrcFits → s.DstFits 16 → s.len = 16 → s.KeyLoaded →
    ∃ t, exec .blkEnc s = .next t ∧
      t = { s with buf := t.buf, outLen := 16, err := false, errCode := 0, padOk := false } ∧
      t.buf.readBytes s.dst.toNat 16 =
        blockBytes (encBlock s.params (keyBytes s) (blockOfBytes (s.buf.readBytes s.src.toNat 16))) ∧
      (∀ a, a < s.dst.toNat ∨ s.dst.toNat + 16 ≤ a → t.buf.read a = s.buf.read a)

/-- R123: BLK.DEC writes `D(K, y)` of its block at DST. -/
def Obligations.BlkDecWritesTheDecryptedBlock : Prop :=
  ∀ s : State, s.Inv → s.SrcFits → s.DstFits 16 → s.len = 16 → s.KeyLoaded →
    ∃ t, exec .blkDec s = .next t ∧
      t = { s with buf := t.buf, outLen := 16, err := false, errCode := 0, padOk := false } ∧
      t.buf.readBytes s.dst.toNat 16 =
        blockBytes (decBlock s.params (keyBytes s) (blockOfBytes (s.buf.readBytes s.src.toNat 16))) ∧
      (∀ a, a < s.dst.toNat ∨ s.dst.toNat + 16 ≤ a → t.buf.read a = s.buf.read a)

/-- R124: the laws of XOR on sequences, and that exchanging its operands does not change what the command does. -/
def Obligations.XorLaws : Prop :=
  (∀ a b : List Byte, a.length = b.length → xorBytes (xorBytes a b) b = a ∧
    xorBytes a (List.replicate a.length 0) = a ∧ xorBytes a b = xorBytes b a) ∧
  (∀ s t : State, exec .xor s = .next t → t.err = false →
    ∃ u, exec .xor { s with src := s.aux, len := s.auxLen, aux := s.src, auxLen := s.len } = .next u ∧
      u.buf = t.buf ∧ u.outLen = t.outLen ∧ u.err = false)

/-- R125: BLK.DEC of what BLK.ENC wrote gives the input back, and BLK.ENC of what BLK.DEC wrote does, wherever in BUF
each is put. -/
def Obligations.BlockCommandsUndoEachOther : Prop :=
  ∀ (s : State) (d : Word), s.Inv → s.SrcFits → s.DstFits 16 → s.len = 16 → s.KeyLoaded →
    d.toNat + 16 ≤ s.params.memBytes →
    (∃ t u, exec .blkEnc s = .next t ∧ exec .blkDec { t with src := s.dst, dst := d } = .next u ∧ u.err = false ∧
      u.buf.readBytes d.toNat 16 = s.buf.readBytes s.src.toNat 16) ∧
    (∃ t u, exec .blkDec s = .next t ∧ exec .blkEnc { t with src := s.dst, dst := d } = .next u ∧ u.err = false ∧
      u.buf.readBytes d.toNat 16 = s.buf.readBytes s.src.toNat 16)

/-! ### The padding codec (41_padding_codec.md) -/

/-- R140: `Pad(B, bs)` is `B` and then `n = bs - (|B| mod bs)` bytes of value `n`, `1 <= n <= bs`, of a length that is a
non-zero multiple of `bs` and longer than `B`. -/
def Obligations.PadAppendsTheirOwnCount : Prop :=
  ∀ (b : List Byte) (bs : Nat), 1 ≤ bs → bs ≤ 255 →
    let n := bs - b.length % bs
    1 ≤ n ∧ n ≤ bs ∧ (pad b bs).length = bs * (b.length / bs + 1) ∧ b.length < (pad b bs).length ∧
    (∀ i, i < b.length → (pad b bs)[i]? = b[i]?) ∧
    (∀ i, b.length ≤ i → i < (pad b bs).length → ((pad b bs)[i]?).map BitVec.toNat = some n)

/-- R145: exactly when `Unpad` accepts, and what it then returns (R141); with the source's three cases. -/
def Obligations.UnpadAcceptsExactlyAWholeRun : Prop :=
  (∀ (b : List Byte) (bs : Nat), 1 ≤ bs → bs ≤ 255 →
    let k := (b.getD (b.length - 1) 0).toNat
    let accepts := 0 < b.length ∧ b.length % bs = 0 ∧ 1 ≤ k ∧ k ≤ bs ∧
      ∀ x ∈ b.drop (b.length - k), x.toNat = k
    (accepts → unpad b bs = some (b.take (b.length - k))) ∧ (¬ accepts → unpad b bs = none)) ∧
  (let iceIceBaby : List Byte := [0x49, 0x43, 0x45, 0x20, 0x49, 0x43, 0x45, 0x20, 0x42, 0x41, 0x42, 0x59]
   unpad (iceIceBaby ++ [4, 4, 4, 4]) 16 = some iceIceBaby ∧
   unpad (iceIceBaby ++ [5, 5, 5, 5]) 16 = none ∧ unpad (iceIceBaby ++ [1, 2, 3, 4]) 16 = none)

/-- R142: PAD writes the padded input at DST. -/
def Obligations.PadCommandWritesThePaddedInput : Prop :=
  ∀ (bs : BitVec 8) (s : State), s.Inv → bs ≠ 0 → s.SrcFits →
    let n := bs.toNat - s.len.toNat % bs.toNat
    s.DstFits (s.len.toNat + n) →
    ∃ t, exec (.pad bs) s = .next t ∧
      t = { s with
        buf := t.buf, outLen := BitVec.ofNat 32 (s.len.toNat + n), err := false, errCode := 0, padOk := false } ∧
      t.buf.readBytes s.dst.toNat (s.len.toNat + n) =
        s.buf.readBytes s.src.toNat s.len.toNat ++ List.replicate n (BitVec.ofNat 8 n) ∧
      (∀ a, a < s.dst.toNat ∨ s.dst.toNat + (s.len.toNat + n) ≤ a → t.buf.read a = s.buf.read a)

/-- R143: UNPAD strips a valid run and reports PAD_OK, or ends in INVALID_PADDING and writes nothing. -/
def Obligations.UnpadCommandStripsOrRejects : Prop :=
  ∀ (bs : BitVec 8) (s : State), s.Inv → bs ≠ 0 → s.SrcFits → s.DstFits s.len.toNat →
    let b := s.buf.readBytes s.src.toNat s.len.toNat
    let k := (b.getD (s.len.toNat - 1) 0).toNat
    let accepts := 0 < s.len.toNat ∧ s.len.toNat % bs.toNat = 0 ∧ 1 ≤ k ∧ k ≤ bs.toNat ∧
      ∀ x ∈ b.drop (s.len.toNat - k), x.toNat = k
    (accepts → ∃ t, exec (.unpad bs) s = .next t ∧
      t = { s with
        buf := t.buf, outLen := BitVec.ofNat 32 (s.len.toNat - k), err := false, errCode := 0, padOk := true } ∧
      t.buf.readBytes s.dst.toNat (s.len.toNat - k) = b.take (s.len.toNat - k) ∧
      (∀ a, a < s.dst.toNat ∨ s.dst.toNat + (s.len.toNat - k) ≤ a → t.buf.read a = s.buf.read a)) ∧
    (¬ accepts → exec (.unpad bs) s = .next (s.errored 2))

/-- R144: `Unpad(Pad(X, bs), bs) = accept(X)`; and UNPAD of what PAD wrote gives the input and its length back. -/
def Obligations.UnpadUndoesPad : Prop :=
  (∀ (x : List Byte) (bs : Nat), 1 ≤ bs → bs ≤ 255 → unpad (pad x bs) bs = some x) ∧
  (∀ (bs : BitVec 8) (s t : State) (d : Word), s.Inv → bs ≠ 0 → exec (.pad bs) s = .next t → t.err = false →
    d.toNat + t.outLen.toNat ≤ s.params.memBytes →
    ∃ u, exec (.unpad bs) { t with src := s.dst, len := t.outLen, dst := d } = .next u ∧
      u.err = false ∧ u.padOk = true ∧ u.outLen = s.len ∧
      u.buf.readBytes d.toNat s.len.toNat = s.buf.readBytes s.src.toNat s.len.toNat)

/-! ### The mode functions (42_mode_engine.md) -/

/-- R161, R162: ECB encryption is `E` on each block of the padded input; ECB decryption rejects a length that is 0 or no
multiple of 16 and otherwise unpads `D` on each block. -/
def Obligations.EcbWorksBlockByBlock : Prop :=
  (∀ (p : Params) (k b : List Byte),
    (ecbEncrypt p k b).length = (pad b 16).length ∧
    ∀ j, 16 * j + 16 ≤ (pad b 16).length →
      slice (ecbEncrypt p k b) (16 * j) (16 * j + 16) =
        blockBytes (encBlock p k (blockOfBytes (slice (pad b 16) (16 * j) (16 * j + 16))))) ∧
  (∀ (p : Params) (k c : List Byte),
    (c.length = 0 ∨ c.length % 16 ≠ 0 → ecbDecrypt p k c = none) ∧
    (c.length ≠ 0 → c.length % 16 = 0 → ∃ x : List Byte, ecbDecrypt p k c = unpad x 16 ∧ x.length = c.length ∧
      ∀ j, 16 * j + 16 ≤ c.length → slice x (16 * j) (16 * j + 16) =
        blockBytes (decBlock p k (blockOfBytes (slice c (16 * j) (16 * j + 16))))))

/-- R179: under one key, equal aligned plaintext blocks give equal ciphertext blocks, wherever they stand and in
whichever command. -/
def Obligations.EqualBlocksEncryptEquallyInEcb : Prop :=
  ∀ (p : Params) (k b b' : List Byte) (j j' : Nat), 16 * j + 16 ≤ b.length → 16 * j' + 16 ≤ b'.length →
    (slice b (16 * j) (16 * j + 16) = slice b' (16 * j') (16 * j' + 16) ↔
      slice (ecbEncrypt p k b) (16 * j) (16 * j + 16) = slice (ecbEncrypt p k b') (16 * j') (16 * j' + 16))

/-- R163: CBC encryption is `C_i = E(P_i XOR C_{i-1})` with `C_0 = IV` over the padded blocks, and the IV is no part of
the output. -/
def Obligations.CbcEncryptionChainsBlocks : Prop :=
  ∀ (p : Params) (k : List Byte) (iv : Block) (b : List Byte),
    (cbcEncrypt p k iv b).length = (pad b 16).length ∧
    ∀ j, 16 * j + 16 ≤ (pad b 16).length →
      slice (cbcEncrypt p k iv b) (16 * j) (16 * j + 16) =
        blockBytes (encBlock p k (xorBlock (blockOfBytes (slice (pad b 16) (16 * j) (16 * j + 16)))
          (if j = 0 then iv else blockOfBytes (slice (cbcEncrypt p k iv b) (16 * j - 16) (16 * j)))))

/-- R164: CBC decryption rejects a length that is 0 or no multiple of 16, and otherwise unpads
`P_i = D(C_i) XOR C_{i-1}` with `C_0 = IV`. -/
def Obligations.CbcDecryptionUnchainsBlocks : Prop :=
  ∀ (p : Params) (k : List Byte) (iv : Block) (c : List Byte),
    (c.length = 0 ∨ c.length % 16 ≠ 0 → cbcDecrypt p k iv c = none) ∧
    (c.length ≠ 0 → c.length % 16 = 0 → ∃ x : List Byte, cbcDecrypt p k iv c = unpad x 16 ∧ x.length = c.length ∧
      ∀ j, 16 * j + 16 ≤ c.length → slice x (16 * j) (16 * j + 16) =
        blockBytes (xorBlock (decBlock p k (blockOfBytes (slice c (16 * j) (16 * j + 16))))
          (if j = 0 then iv else blockOfBytes (slice c (16 * j - 16) (16 * j)))))

/-- R165: byte `j` of a CTR transform is the input byte XOR byte `j mod 16` of `E` of counter block `j / 16`, and nothing
is added or cut. -/
def Obligations.CtrXorsTheKeystream : Prop :=
  ∀ (p : Params) (k : List Byte) (nonce : Nat) (b : List Byte),
    (ctrTransform p k nonce b).length = b.length ∧
    ∀ j, j < b.length → (ctrTransform p k nonce b).getD j 0 =
      b.getD j 0 ^^^ (blockBytes (encBlock p k (counterBlock nonce (j / 16)))).getD (j % 16) 0

/-- R180: XORing `X` into one ciphertext block (or the IV) XORs it into the next plaintext block, changes the block's own
plaintext to what `D` makes of it, and leaves every other plaintext block alone. -/
def Obligations.CbcEditFlipsTheNextBlock : Prop :=
  ∀ (p : Params) (k : List Byte) (iv x : Block) (c : List Block),
    (∀ j, 0 < j → j < c.length →
      let c' := c.set (j - 1) (xorBlock (c.getD (j - 1) iv) x)
      ∀ i, i < c.length → (cbcUnchain p k iv c').getD i iv =
        if i = j then xorBlock ((cbcUnchain p k iv c).getD j iv) x
        else if i = j - 1 then
          xorBlock (decBlock p k (xorBlock (c.getD (j - 1) iv) x)) (if j = 1 then iv else c.getD (j - 2) iv)
        else (cbcUnchain p k iv c).getD i iv) ∧
    (∀ i, i < c.length → (cbcUnchain p k (xorBlock iv x) c).getD i iv =
      if i = 0 then xorBlock ((cbcUnchain p k iv c).getD 0 iv) x else (cbcUnchain p k iv c).getD i iv)

/-- R181: a CTR command keeps the length; the transform twice returns the original; two inputs under one key and nonce
are XORed with the same keystream. -/
def Obligations.CtrIsItsOwnInverse : Prop :=
  (∀ (i : Instr) (s t : State), i = .enc ∨ i = .dec ∨ i = .ctrXcrypt → s.mode = 2 → exec i s = .next t →
    t.err = false → t.outLen = s.len) ∧
  (∀ (p : Params) (k : List Byte) (nonce : Nat) (b : List Byte),
    ctrTransform p k nonce (ctrTransform p k nonce b) = b) ∧
  (∀ (p : Params) (k : List Byte) (nonce : Nat) (b b' : List Byte), b.length = b'.length →
    xorBytes b (ctrTransform p k nonce b) = xorBytes b' (ctrTransform p k nonce b'))

/-! ### The mode commands (42_mode_engine.md) -/

/-- R167: ENC in ECB mode writes `EcbEncrypt(K, P)` at DST; neither IV nor nonce is consumed. -/
def Obligations.EncInEcbWritesTheCiphertext : Prop :=
  ∀ s : State, s.Inv → s.mode = 0 → s.SrcFits →
    let n := s.len.toNat + 16 - s.len.toNat % 16
    s.DstFits n → s.KeyLoaded →
    ∃ t, exec .enc s = .next t ∧
      t = { s with buf := t.buf, outLen := BitVec.ofNat 32 n, err := false, errCode := 0, padOk := false } ∧
      t.buf.readBytes s.dst.toNat n =
        ecbEncrypt s.params (keyBytes s) (s.buf.readBytes s.src.toNat s.len.toNat) ∧
      (∀ a, a < s.dst.toNat ∨ s.dst.toNat + n ≤ a → t.buf.read a = s.buf.read a)

/-- R168: ENC in CBC mode writes `CbcEncrypt(K, IV, P)` at DST and consumes the IV. -/
def Obligations.EncInCbcWritesTheCiphertext : Prop :=
  ∀ s : State, s.Inv → s.mode = 1 → s.SrcFits →
    let n := s.len.toNat + 16 - s.len.toNat % 16
    s.DstFits n → s.KeyLoaded → s.IvValid →
    ∃ t, exec .enc s = .next t ∧
      t = { s with
        buf := t.buf, outLen := BitVec.ofNat 32 n, err := false, errCode := 0, padOk := false, ivMask := 0 } ∧
      t.buf.readBytes s.dst.toNat n =
        cbcEncrypt s.params (keyBytes s) (blockOfBytes (ivBytes s)) (s.buf.readBytes s.src.toNat s.len.toNat) ∧
      (∀ a, a < s.dst.toNat ∨ s.dst.toNat + n ≤ a → t.buf.read a = s.buf.read a)

/-- R169, R173, R177: in CTR mode ENC, DEC and CTR.XCRYPT all write `CtrTransform(K, nonce, B)` at DST and consume the
nonce. -/
def Obligations.CtrCommandsWriteTheTransform : Prop :=
  ∀ (i : Instr) (s : State), i = .enc ∨ i = .dec ∨ i = .ctrXcrypt → s.Inv → s.mode = 2 → s.SrcFits →
    s.DstFits s.len.toNat → s.KeyLoaded → s.NonceValid →
    ∃ t, exec i s = .next t ∧
      t = { s with buf := t.buf, outLen := s.len, err := false, errCode := 0, padOk := false, nonceMask := 0 } ∧
      t.buf.readBytes s.dst.toNat s.len.toNat =
        ctrTransform s.params (keyBytes s) (nonceVal s) (s.buf.readBytes s.src.toNat s.len.toNat) ∧
      (∀ a, a < s.dst.toNat ∨ s.dst.toNat + s.len.toNat ≤ a → t.buf.read a = s.buf.read a)

/-- R171: DEC in ECB mode writes the accepted plaintext with PAD_OK, or ends in INVALID_PADDING and writes nothing. -/
def Obligations.DecInEcbWritesThePlaintextOrRejects : Prop :=
  ∀ s : State, s.Inv → s.mode = 0 → s.SrcFits → s.DstFits s.len.toNat → s.KeyLoaded →
    (∀ x, ecbDecrypt s.params (keyBytes s) (s.buf.readBytes s.src.toNat s.len.toNat) = some x →
      ∃ t, exec .dec s = .next t ∧
        t = { s with
          buf := t.buf, outLen := BitVec.ofNat 32 x.length, err := false, errCode := 0, padOk := true } ∧
        t.buf.readBytes s.dst.toNat x.length = x ∧ x.length < s.len.toNat ∧
        (∀ a, a < s.dst.toNat ∨ s.dst.toNat + x.length ≤ a → t.buf.read a = s.buf.read a)) ∧
    (ecbDecrypt s.params (keyBytes s) (s.buf.readBytes s.src.toNat s.len.toNat) = none →
      exec .dec s = .next (s.errored 2))

/-- R172: DEC in CBC mode writes the accepted plaintext with PAD_OK, or ends in INVALID_PADDING and writes nothing; the
IV is consumed either way. -/
def Obligations.DecInCbcWritesThePlaintextOrRejects : Prop :=
  ∀ s : State, s.Inv → s.mode = 1 → s.SrcFits → s.DstFits s.len.toNat → s.KeyLoaded → s.IvValid →
    (∀ x, cbcDecrypt s.params (keyBytes s) (blockOfBytes (ivBytes s)) (s.buf.readBytes s.src.toNat s.len.toNat) =
        some x →
      ∃ t, exec .dec s = .next t ∧
        t = { s with
          buf := t.buf, outLen := BitVec.ofNat 32 x.length, err := false, errCode := 0, padOk := true
          ivMask := 0 } ∧
        t.buf.readBytes s.dst.toNat x.length = x ∧ x.length < s.len.toNat ∧
        (∀ a, a < s.dst.toNat ∨ s.dst.toNat + x.length ≤ a → t.buf.read a = s.buf.read a)) ∧
    (cbcDecrypt s.params (keyBytes s) (blockOfBytes (ivBytes s)) (s.buf.readBytes s.src.toNat s.len.toNat) = none →
      exec .dec s = .next ({ s with ivMask := 0 }.errored 2))

/-- R175, R176: CHECK reports in PAD_OK whether the decryption's padding validates, writes no byte, reports no error,
looks at no DST, and consumes the IV in CBC mode. -/
def Obligations.CheckReportsTheVerdict : Prop :=
  ∀ s : State, s.SrcFits → s.KeyLoaded →
    (s.mode = 0 → exec .check s = .next { s with
      outLen := 0, err := false, errCode := 0
      padOk := (ecbDecrypt s.params (keyBytes s) (s.buf.readBytes s.src.toNat s.len.toNat)).isSome }) ∧
    (s.mode = 1 → s.IvValid → exec .check s = .next { s with
      outLen := 0, err := false, errCode := 0, ivMask := 0
      padOk := (cbcDecrypt s.params (keyBytes s) (blockOfBytes (ivBytes s))
        (s.buf.readBytes s.src.toNat s.len.toNat)).isSome })

/-- R178: with one key loaded and the IV or nonce written again, DEC of what ENC wrote writes the plaintext, in every
mode, with PAD_OK in ECB and CBC. -/
def Obligations.DecUndoesEncInEveryMode : Prop :=
  ∀ (s t : State) (d : Word), s.Inv → s.mode ≠ 3 → exec .enc s = .next t → t.err = false →
    d.toNat + t.outLen.toNat ≤ s.params.memBytes →
    ∃ u, exec .dec
        { t with src := s.dst, len := t.outLen, dst := d, ivMask := s.ivMask, nonceMask := s.nonceMask } = .next u ∧
      u.err = false ∧ u.padOk = (s.mode != 2) ∧ u.outLen = s.len ∧
      u.buf.readBytes d.toNat s.len.toNat = s.buf.readBytes s.src.toNat s.len.toNat

/-- R183: CHECK in CBC mode of a one-block ciphertext `C_1` under IV `v` reports PAD_OK exactly when
`Unpad(D(K, C_1) XOR v, 16)` accepts. -/
def Obligations.CheckOfOneBlockIsThePaddingOracle : Prop :=
  ∀ s : State, s.mode = 1 → s.SrcFits → s.len = 16 → s.KeyLoaded → s.IvValid →
    ∃ t, exec .check s = .next t ∧
      (t.padOk = true ↔ ∃ x, unpad (blockBytes (xorBlock
        (decBlock s.params (keyBytes s) (blockOfBytes (s.buf.readBytes s.src.toNat 16)))
        (blockOfBytes (ivBytes s)))) 16 = some x)

/-! ### Host assembly (30_encoding.md) -/

/-- R99: the expansion of `cbc.enc`, access by access, and that no `mode` pseudo-statement clears KEYLOCK. -/
def Obligations.AssemblerExpandsCbcEncAndKeepsKeyLock : Prop :=
  (∀ (p : Params) (src len dst : Word) (h : List Byte), h.length = 16 →
    expand p (.cbcEnc src len dst h) = some [
      .reg 0x000 (.write 4 1),
      .reg 0x040 (.write 4 (BitVec.ofNat 32 (leValue (slice h 0 4)))),
      .reg 0x044 (.write 4 (BitVec.ofNat 32 (leValue (slice h 4 8)))),
      .reg 0x048 (.write 4 (BitVec.ofNat 32 (leValue (slice h 8 12)))),
      .reg 0x04C (.write 4 (BitVec.ofNat 32 (leValue (slice h 12 16)))),
      .reg 0x010 (.write 4 src), .reg 0x014 (.write 4 len), .reg 0x018 (.write 4 dst),
      .reg 0x008 (.write 4 0x00000006)]) ∧
  (∀ (p : Params) (m : AsmMode) (evs : List HostEvent), expand p (.mode m) = some evs →
    ∀ s : State, s.pending = evs → ∃ t, step s = .next t ∧ t.keyLock = s.keyLock ∧ t.mode = m.value.extractLsb' 0 2)
end

