-- ==== Sys2Proof/Laws/Blocks.lean ====
section
/-! SUPPORT. Laws of byte sequences, blocks and the BlockPrimitive (00_scope.md R9, R12). -/

namespace Sys2Proof.Machine

open Sys2Proof

/-! ### The BlockPrimitive -/

/-- The first law of R9. -/
@[simp] theorem decBlock_encBlock (p : Params) (k : List Byte) (x : Block) : decBlock p k (encBlock p k x) = x :=
  (cipher p k).symm_apply_apply x

/-- The second law of R9. -/
@[simp] theorem encBlock_decBlock (p : Params) (k : List Byte) (y : Block) : encBlock p k (decBlock p k y) = y :=
  (cipher p k).apply_symm_apply y

/-! ### Exclusive-or -/

@[simp] theorem xorBytes_length (a b : List Byte) : (xorBytes a b).length = min a.length b.length := by
  simp [xorBytes]

theorem xorBytes_getElem (a b : List Byte) (i : Nat) (h : i < (xorBytes a b).length) :
    (xorBytes a b)[i] =
      a[i]'(by simp only [xorBytes_length] at h; omega) ^^^ b[i]'(by simp only [xorBytes_length] at h; omega) := by
  simp [xorBytes]

theorem xorBytes_comm (a b : List Byte) : xorBytes a b = xorBytes b a := by
  apply List.ext_getElem
  · simp [Nat.min_comm]
  · intro i h1 h2
    rw [xorBytes_getElem, xorBytes_getElem, BitVec.xor_comm]

/-- The same operand twice gives the other one back. -/
theorem xorBytes_cancel (a b : List Byte) (h : a.length ≤ b.length) : xorBytes (xorBytes a b) b = a := by
  apply List.ext_getElem
  · simp only [xorBytes_length]; omega
  · intro i h1 h2
    simp only [xorBytes_getElem, BitVec.xor_assoc, BitVec.xor_self, BitVec.xor_zero]

@[simp] theorem xorBlock_getElem (x y : Block) (i : Nat) (h : i < 16) : (xorBlock x y)[i] = x[i] ^^^ y[i] := by
  rw [xorBlock, blockOfBytes, blockOfFn_getElem _ _ h, List.getD_eq_getElem _ _ (by simp [blockBytes]; omega),
    xorBytes_getElem]
  simp [blockBytes]

@[simp] theorem xorBlock_cancel (x y : Block) : xorBlock (xorBlock x y) y = x := by
  ext i h
  simp only [xorBlock_getElem, BitVec.xor_assoc, BitVec.xor_self, BitVec.xor_zero]

theorem xorBlock_assoc (x y z : Block) : xorBlock (xorBlock x y) z = xorBlock x (xorBlock y z) := by
  ext i h
  simp only [xorBlock_getElem, BitVec.xor_assoc]

theorem xorBlock_comm (x y : Block) : xorBlock x y = xorBlock y x := by
  ext i h
  simp only [xorBlock_getElem, BitVec.xor_comm]

/-! ### Blocks and their bytes -/

@[simp] theorem blockBytes_length (x : Block) : (blockBytes x).length = 16 := by simp [blockBytes]

theorem blockBytes_getElem (x : Block) (i : Nat) (h : i < (blockBytes x).length) :
    (blockBytes x)[i] = x[i]'(by simpa using h) := by simp [blockBytes]

@[simp] theorem blockOfBytes_getElem (l : List Byte) (i : Nat) (h : i < 16) : (blockOfBytes l)[i] = l.getD i 0 :=
  blockOfFn_getElem _ i h

@[simp] theorem blockOfBytes_blockBytes (x : Block) : blockOfBytes (blockBytes x) = x := by
  ext i h
  rw [blockOfBytes_getElem, List.getD_eq_getElem _ _ (by simpa using h), blockBytes_getElem]

theorem blockBytes_blockOfBytes (l : List Byte) (h : l.length = 16) : blockBytes (blockOfBytes l) = l := by
  apply List.ext_getElem (by simp [h])
  intro i h1 h2
  rw [blockBytes_getElem, blockOfBytes_getElem, List.getD_eq_getElem _ _ h2]

@[simp] theorem joinBlocks_nil : joinBlocks [] = [] := rfl

@[simp] theorem joinBlocks_cons (x : Block) (xs : List Block) : joinBlocks (x :: xs) = blockBytes x ++ joinBlocks xs :=
  rfl

@[simp] theorem joinBlocks_length (xs : List Block) : (joinBlocks xs).length = 16 * xs.length := by
  induction xs with
  | nil => rfl
  | cons x xs ih => simp only [joinBlocks_cons, List.length_append, blockBytes_length, List.length_cons, ih]; omega

@[simp] theorem blocks_length (b : List Byte) : (blocks b).length = b.length / 16 := by simp [blocks]

theorem slice_length (b : List Byte) (i j : Nat) (h : j ≤ b.length) : (slice b i j).length = j - i := by
  simp [slice]; omega

theorem slice_append_right (a b : List Byte) (i j : Nat) :
    slice (a ++ b) (a.length + i) (a.length + j) = slice b i j := by
  have : List.drop (a.length + i) a = [] := List.drop_eq_nil_of_le (by omega)
  simp [slice, List.drop_append, Nat.add_sub_add_left, this]

/-- The blocks of a sequence that begins with a block. -/
theorem blocks_append (a b : List Byte) (h : a.length = 16) : blocks (a ++ b) = blockOfBytes a :: blocks b := by
  have hl : (a ++ b).length / 16 = b.length / 16 + 1 := by simp [h]
  unfold blocks
  rw [hl, List.range_succ_eq_map, List.map_cons, List.map_map]
  congr 1
  · congr 1
    simp [slice, ← h]
  · apply List.map_congr_left
    intro j _
    have := slice_append_right a b (16 * j) (16 * j + 16)
    rw [h] at this
    simp only [Function.comp, Nat.succ_eq_add_one]
    rw [← this]
    congr 2 <;> omega

@[simp] theorem blocks_nil : blocks [] = [] := rfl

/-- Splitting what was joined gives the blocks back. -/
@[simp] theorem blocks_joinBlocks (xs : List Block) : blocks (joinBlocks xs) = xs := by
  induction xs with
  | nil => rfl
  | cons x xs ih => rw [joinBlocks_cons, blocks_append _ _ (blockBytes_length x), ih, blockOfBytes_blockBytes]

/-- Joining what was split gives the sequence back, when it is whole blocks. -/
theorem joinBlocks_blocks (b : List Byte) (h : b.length % 16 = 0) : joinBlocks (blocks b) = b := by
  obtain ⟨n, hn⟩ : ∃ n, b.length = 16 * n := ⟨b.length / 16, by omega⟩
  induction n generalizing b with
  | zero =>
    have : b = [] := List.length_eq_zero_iff.1 (by omega)
    subst this; rfl
  | succ n ih =>
    have ht : (b.take 16).length = 16 := by simp; omega
    have hd : (b.drop 16).length = 16 * n := by simp; omega
    calc joinBlocks (blocks b) = joinBlocks (blocks (b.take 16 ++ b.drop 16)) := by rw [List.take_append_drop]
      _ = blockBytes (blockOfBytes (b.take 16)) ++ joinBlocks (blocks (b.drop 16)) := by
        rw [blocks_append _ _ ht, joinBlocks_cons]
      _ = b.take 16 ++ b.drop 16 := by
        rw [blockBytes_blockOfBytes _ ht, ih _ (by omega) hd]
      _ = b := List.take_append_drop ..

/-! ### Words and bytes -/

@[simp] theorem wordBytes_length (w : Nat) (v : Word) : (wordBytes w v).length = w := by simp [wordBytes]

@[simp] theorem le64_length (x : Nat) : (le64 x).length = 8 := by simp [le64]

theorem leValue_lt (b : List Byte) : leValue b < 256 ^ b.length := by
  induction b with
  | nil => simp [leValue]
  | cons x b ih =>
    have := x.isLt
    simp only [leValue, List.length_cons, Nat.pow_succ]
    omega

/-- Little-endian bytes of a little-endian value (R63, R65). -/
theorem wordBytes_leValue (b : List Byte) (h : b.length ≤ 4) : wordBytes b.length (BitVec.ofNat 32 (leValue b)) = b := by
  apply List.ext_getElem (by simp)
  intro i h1 h2
  simp only [wordBytes, List.getElem_map, List.getElem_range]
  apply BitVec.eq_of_toNat_eq
  have key : ∀ (b : List Byte) (i : Nat) (h : i < b.length), leValue b / 2 ^ (8 * i) % 256 = (b[i]).toNat := by
    intro b
    induction b with
    | nil => intro i h; simp at h
    | cons x b ih =>
      intro i h
      have := x.isLt
      cases i with
      | zero => simp [leValue]; omega
      | succ i =>
        have e : 2 ^ (8 * (i + 1)) = 256 * 2 ^ (8 * i) := by
          rw [Nat.mul_succ, Nat.pow_add]; omega
        rw [e, ← Nat.div_div_eq_div_mul, List.getElem_cons_succ, ← ih i (by simpa using h)]
        simp only [leValue]
        congr 2
        omega
  have hlt : leValue b < 2 ^ 32 := by
    refine Nat.lt_of_lt_of_le (leValue_lt b) ?_
    calc 256 ^ b.length ≤ 256 ^ 4 := Nat.pow_le_pow_right (by decide) h
      _ = 2 ^ 32 := by decide
  simp only [byteOf, BitVec.extractLsb'_toNat, BitVec.toNat_ofNat, Nat.mod_eq_of_lt hlt, Nat.shiftRight_eq_div_pow]
  exact key b i h2

/-! ### One block of many -/

/-- Block `j` of joined blocks. -/
theorem slice_joinBlocks (xs : List Block) (j : Nat) (h : j < xs.length) :
    slice (joinBlocks xs) (16 * j) (16 * j + 16) = blockBytes xs[j] := by
  induction xs generalizing j with
  | nil => simp at h
  | cons x xs ih =>
    rw [joinBlocks_cons]
    cases j with
    | zero => simp [slice]
    | succ j =>
      have := slice_append_right (blockBytes x) (joinBlocks xs) (16 * j) (16 * j + 16)
      rw [blockBytes_length] at this
      rw [show 16 * (j + 1) = 16 + 16 * j by omega, show 16 + 16 * j + 16 = 16 + (16 * j + 16) by omega, this]
      simp only [List.getElem_cons_succ]
      exact ih j (by simpa using h)

/-- Byte `j` of joined blocks. -/
theorem joinBlocks_getD (xs : List Block) (j : Nat) (h : j / 16 < xs.length) :
    (joinBlocks xs).getD j 0 = (blockBytes xs[j / 16]).getD (j % 16) 0 := by
  rw [← slice_joinBlocks xs (j / 16) h]
  rw [List.getD_eq_getElem?_getD, List.getD_eq_getElem?_getD, slice, List.getElem?_take, if_pos (by omega),
    List.getElem?_drop]
  congr 2; omega

theorem blocks_getElem (b : List Byte) (j : Nat) (h : j < (blocks b).length) :
    (blocks b)[j] = blockOfBytes (slice b (16 * j) (16 * j + 16)) := by
  simp [blocks]

theorem encBlock_injective {p : Params} {k : List Byte} {x y : Block} (h : encBlock p k x = encBlock p k y) :
    x = y := by
  have := congrArg (decBlock p k) h
  simpa using this

theorem blockBytes_injective {x y : Block} (h : blockBytes x = blockBytes y) : x = y := by
  have := congrArg blockOfBytes h
  simpa using this

/-! ### The bytes of words -/

theorem flatMap_wordBytes_length (ws : List Word) : (ws.flatMap (wordBytes 4)).length = 4 * ws.length := by
  induction ws with
  | nil => rfl
  | cons w ws ih => rw [List.flatMap_cons, List.length_append, ih, wordBytes_length, List.length_cons]; omega

theorem wordBytes_getElem? (v : Word) (j : Nat) (h : j < 4) :
    (wordBytes 4 v)[j]? = some (v.extractLsb' (8 * j) 8) := by
  simp [wordBytes, h, byteOf]

/-- Byte `j` of word `k` in the byte view of a list of words (R35, R38). -/
theorem flatMap_wordBytes_getElem? (ws : List Word) (k j : Nat) (h : j < 4) :
    (ws.flatMap (wordBytes 4))[4 * k + j]? = ws[k]?.map fun w => w.extractLsb' (8 * j) 8 := by
  induction ws generalizing k with
  | nil => simp
  | cons w ws ih =>
    rw [List.flatMap_cons]
    cases k with
    | zero =>
      rw [List.getElem?_append_left (by rw [wordBytes_length]; omega), Nat.mul_zero, Nat.zero_add,
        wordBytes_getElem? _ _ h]
      simp
    | succ k =>
      rw [List.getElem?_append_right (by rw [wordBytes_length]; omega), wordBytes_length,
        show 4 * (k + 1) + j - 4 = 4 * k + j by omega, ih]
      simp

end Sys2Proof.Machine
end

