-- ==== Sys2Proof/Laws/Memory.lean ====
section
/-! SUPPORT. Laws of BUF: the canonical form is kept, a read after a write, and equal reads mean equal memories. -/

namespace Sys2Proof.Machine

open Sys2Proof

@[simp] theorem Memory.read_nil (a : Nat) : Memory.read [] a = Memory.unlisted := rfl

@[simp] theorem Memory.read_cons (k : Nat) (c : Byte) (m : Memory) (a : Nat) :
    Memory.read ((k, c) :: m) a = if k = a then c else Memory.read m a := rfl

@[simp] theorem Memory.wfFrom_nil (lo : Nat) : Memory.wfFrom lo [] = true := rfl

@[simp] theorem Memory.wfFrom_cons (lo k : Nat) (c : Byte) (m : Memory) :
    Memory.wfFrom lo ((k, c) :: m) = true ↔
      lo ≤ k ∧ c ≠ Memory.unlisted ∧ Memory.wfFrom (k + 1) m = true := by
  simp [Memory.wfFrom, and_assoc]

theorem Memory.wfFrom_mono {lo lo' : Nat} (h : lo' ≤ lo) :
    ∀ {m : Memory}, Memory.wfFrom lo m = true → Memory.wfFrom lo' m = true
  | [], _ => rfl
  | (k, c) :: m, hm => by
    simp only [Memory.wfFrom_cons] at hm ⊢
    exact ⟨by omega, hm.2⟩

/-- Below its lowest entry a canonical memory is unlisted. -/
theorem Memory.read_below {a : Nat} :
    ∀ {m : Memory} {lo : Nat}, Memory.wfFrom lo m = true → a < lo → Memory.read m a = Memory.unlisted
  | [], _, _, _ => rfl
  | (k, c) :: m, lo, hm, h => by
    simp only [Memory.wfFrom_cons] at hm
    rw [Memory.read_cons, if_neg (by omega)]
    exact Memory.read_below hm.2.2 (by omega)

theorem Memory.read_put {a : Nat} {b : Byte} {m : Memory} (h : Memory.wfFrom (a + 1) m = true) (x : Nat) :
    Memory.read (Memory.put a b m) x = if x = a then b else Memory.read m x := by
  unfold Memory.put
  by_cases hb : b = Memory.unlisted
  · rw [if_pos hb]
    split
    · next e => rw [hb, e]; exact Memory.read_below h (by omega)
    · rfl
  · rw [if_neg hb, Memory.read_cons]
    simp only [eq_comm]

theorem Memory.wfFrom_put {a lo : Nat} {b : Byte} {m : Memory} (h : Memory.wfFrom (a + 1) m = true) (hl : lo ≤ a) :
    Memory.wfFrom lo (Memory.put a b m) = true := by
  unfold Memory.put
  split
  · exact Memory.wfFrom_mono (by omega) h
  · next hb => exact (Memory.wfFrom_cons ..).2 ⟨hl, hb, h⟩

/-- A read after a write of a canonical memory. -/
theorem Memory.read_write {a : Nat} {b : Byte} (x : Nat) :
    ∀ {m : Memory} {lo : Nat}, Memory.wfFrom lo m = true →
      Memory.read (Memory.write m a b) x = if x = a then b else Memory.read m x
  | [], _, _ => Memory.read_put rfl x
  | (k, c) :: m, lo, hm => by
    have hc := (Memory.wfFrom_cons ..).1 hm
    rw [Memory.write]
    split
    · next h => exact Memory.read_put ((Memory.wfFrom_cons ..).2 ⟨by omega, hc.2⟩) x
    · split
      · next h =>
        subst h
        rw [Memory.read_put hc.2.2, Memory.read_cons]
        by_cases hx : x = a <;> simp [hx, eq_comm]
        intro e; exact absurd e.symm hx
      · rw [Memory.read_cons, Memory.read_write x hc.2.2, Memory.read_cons]
        by_cases hk : k = x
        · rw [if_pos hk, if_pos hk, if_neg (by omega)]
        · rw [if_neg hk, if_neg hk]

/-- A write keeps the canonical form. -/
theorem Memory.wfFrom_write {a : Nat} {b : Byte} :
    ∀ {m : Memory} {lo : Nat}, Memory.wfFrom lo m = true → lo ≤ a → Memory.wfFrom lo (Memory.write m a b) = true
  | [], _, _, hl => Memory.wfFrom_put rfl hl
  | (k, c) :: m, lo, hm, hl => by
    have hc := (Memory.wfFrom_cons ..).1 hm
    rw [Memory.write]
    split
    · next h => exact Memory.wfFrom_put ((Memory.wfFrom_cons ..).2 ⟨by omega, hc.2⟩) hl
    · split
      · next h => subst h; exact Memory.wfFrom_put hc.2.2 hl
      · exact (Memory.wfFrom_cons ..).2 ⟨hc.1, hc.2.1, Memory.wfFrom_write hc.2.2 (by omega)⟩

theorem Memory.wf_write {m : Memory} (h : m.wf = true) (a : Nat) (b : Byte) : (Memory.write m a b).wf = true :=
  Memory.wfFrom_write h (Nat.zero_le a)

theorem Memory.read_write_of_wf {m : Memory} (h : m.wf = true) (a : Nat) (b : Byte) (x : Nat) :
    Memory.read (Memory.write m a b) x = if x = a then b else Memory.read m x :=
  Memory.read_write x h

/-- A write lists no address but its own. -/
theorem Memory.mem_write {m : Memory} {a : Nat} {b : Byte} {c : Host.Cell} (h : c ∈ Memory.write m a b) :
    c = (a, b) ∨ c ∈ m := by
  have put_case : ∀ {m : Memory}, c ∈ Memory.put a b m → c = (a, b) ∨ c ∈ m := by
    intro m hm
    unfold Memory.put at hm
    split at hm
    · exact .inr hm
    · exact List.mem_cons.1 hm
  induction m with
  | nil => exact put_case h
  | cons kc m ih =>
    obtain ⟨k, v⟩ := kc
    rw [Memory.write] at h
    split at h
    · exact put_case h
    · split at h
      · exact (put_case h).imp_right fun e => List.mem_cons_of_mem _ e
      · rcases List.mem_cons.1 h with e | e
        · exact .inr (e ▸ List.mem_cons_self)
        · exact (ih e).imp_right fun e => List.mem_cons_of_mem _ e

/-- A write of `v` keeps the canonical form. -/
theorem Memory.wf_writeBytes {m : Memory} (h : m.wf = true) (a : Nat) (v : List Byte) :
    (Memory.writeBytes m a v).wf = true := by
  induction v generalizing m a with
  | nil => exact h
  | cons b v ih => exact ih (Memory.wf_write h a b) (a + 1)

/-- A read after a write of `v`: byte `x - a` of `v` inside the written range, the old byte outside. -/
theorem Memory.read_writeBytes {m : Memory} (h : m.wf = true) (a : Nat) (v : List Byte) (x : Nat) :
    Memory.read (Memory.writeBytes m a v) x =
      if a ≤ x ∧ x < a + v.length then v.getD (x - a) 0 else Memory.read m x := by
  induction v generalizing m a with
  | nil => rw [Memory.writeBytes, if_neg (by simp)]
  | cons b v ih =>
    rw [Memory.writeBytes, ih (Memory.wf_write h a b), Memory.read_write_of_wf h]
    simp only [List.length_cons]
    by_cases hx : x = a
    · subst hx
      simp
    · by_cases hin : a + 1 ≤ x ∧ x < a + 1 + v.length
      · rw [if_pos hin, if_pos (by omega)]
        obtain ⟨d, hd⟩ : ∃ d, x - a = d + 1 := ⟨x - a - 1, by omega⟩
        rw [hd, List.getD_cons_succ]
        congr 1; omega
      · rw [if_neg hin, if_neg hx, if_neg (by omega)]

theorem Memory.mem_writeBytes {m : Memory} {a : Nat} {v : List Byte} {c : Host.Cell}
    (h : c ∈ Memory.writeBytes m a v) : c ∈ m ∨ (a ≤ c.1 ∧ c.1 < a + v.length) := by
  induction v generalizing m a with
  | nil => exact .inl h
  | cons b v ih =>
    simp only [List.length_cons]
    rcases ih h with h' | h'
    · rcases Memory.mem_write h' with rfl | h''
      · exact .inr ⟨Nat.le_refl _, by simp⟩
      · exact .inl h''
    · exact .inr (by omega)

@[simp] theorem Memory.readBytes_length (m : Memory) (a n : Nat) : (Memory.readBytes m a n).length = n := by
  simp [Memory.readBytes]

@[simp] theorem Memory.readBytes_zero (m : Memory) (a : Nat) : Memory.readBytes m a 0 = [] := rfl

theorem Memory.readBytes_getD (m : Memory) (a n i : Nat) (h : i < n) :
    (Memory.readBytes m a n).getD i 0 = Memory.read m (a + i) := by
  simp [Memory.readBytes, List.getD_eq_getElem?_getD, h]

/-- What a write of `v` put there is read back. -/
theorem Memory.readBytes_writeBytes_same {m : Memory} (h : m.wf = true) (a : Nat) (v : List Byte) :
    Memory.readBytes (Memory.writeBytes m a v) a v.length = v := by
  apply List.ext_getElem (by simp)
  intro i h1 h2
  simp only [Memory.readBytes, List.getElem_map, List.getElem_range, Memory.read_writeBytes h]
  rw [if_pos (by omega)]
  simp [h2]

/-- A range the write does not touch reads as before. -/
theorem Memory.readBytes_writeBytes_disjoint {m : Memory} (h : m.wf = true) (a : Nat) (v : List Byte) (x n : Nat)
    (hd : x + n ≤ a ∨ a + v.length ≤ x) :
    Memory.readBytes (Memory.writeBytes m a v) x n = Memory.readBytes m x n := by
  apply List.map_congr_left
  intro i hi
  rw [Memory.read_writeBytes h, if_neg]
  have := List.mem_range.1 hi
  omega

/-- Two canonical memories that read the same everywhere are equal data. -/
theorem Memory.ext_read {m m' : Memory} (h : m.wf = true) (h' : m'.wf = true)
    (e : ∀ a, Memory.read m a = Memory.read m' a) : m = m' := by
  have main : ∀ (m m' : Memory) (lo : Nat), Memory.wfFrom lo m = true → Memory.wfFrom lo m' = true →
      (∀ a, Memory.read m a = Memory.read m' a) → m = m' := by
    intro m
    induction m with
    | nil =>
      intro m' lo _ h' e
      cases m' with
      | nil => rfl
      | cons kc m' =>
        obtain ⟨k, c⟩ := kc
        have hc := (Memory.wfFrom_cons ..).1 h'
        have := e k
        simp only [Memory.read_nil, Memory.read_cons, if_true] at this
        exact absurd this.symm hc.2.1
    | cons kc m ih =>
      obtain ⟨k, c⟩ := kc
      intro m' lo h h' e
      have hc := (Memory.wfFrom_cons ..).1 h
      cases m' with
      | nil =>
        have := e k
        simp only [Memory.read_nil, Memory.read_cons, if_true] at this
        exact absurd this hc.2.1
      | cons kc' m' =>
        obtain ⟨k', c'⟩ := kc'
        have hc' := (Memory.wfFrom_cons ..).1 h'
        have hk : k = k' := by
          rcases Nat.lt_trichotomy k k' with hlt | heq | hgt
          · have := e k
            rw [Memory.read_cons, if_pos rfl, Memory.read_cons, if_neg (by omega),
              Memory.read_below hc'.2.2 (by omega)] at this
            exact absurd this hc.2.1
          · exact heq
          · have := e k'
            rw [Memory.read_cons, if_neg (by omega), Memory.read_below hc.2.2 (by omega), Memory.read_cons,
              if_pos rfl] at this
            exact absurd this.symm hc'.2.1
        subst hk
        have hv : c = c' := by
          have := e k
          simpa using this
        subst hv
        congr 1
        refine ih m' (k + 1) hc.2.2 hc'.2.2 fun a => ?_
        have := e a
        simp only [Memory.read_cons] at this
        by_cases ha : k = a
        · subst ha
          rw [Memory.read_below hc.2.2 (by omega), Memory.read_below hc'.2.2 (by omega)]
        · simpa [ha] using this
  exact main m m' 0 h h' e

/-- A reset draw is canonical. -/
theorem Memory.wf_ofCells (n : Nat) (cells : List Host.Cell) : (Memory.ofCells n cells).wf = true := by
  unfold Memory.ofCells
  have : ∀ (m : Memory), m.wf = true →
      (cells.foldl (fun m c => if c.1 < n then Memory.write m c.1 c.2 else m) m).wf = true := by
    induction cells with
    | nil => intro m h; exact h
    | cons c cells ih =>
      intro m h
      rw [List.foldl_cons]
      split
      · exact ih _ (Memory.wf_write h _ _)
      · exact ih _ h
  exact this [] rfl

/-- A reset draw lists only bytes of BUF. -/
theorem Memory.mem_ofCells {n : Nat} {cells : List Host.Cell} {c : Host.Cell}
    (h : c ∈ Memory.ofCells n cells) : c.1 < n := by
  unfold Memory.ofCells at h
  have : ∀ (m : Memory), (∀ c ∈ m, c.1 < n) →
      ∀ c ∈ cells.foldl (fun m c => if c.1 < n then Memory.write m c.1 c.2 else m) m, c.1 < n := by
    clear h
    induction cells with
    | nil => intro m h; exact h
    | cons d cells ih =>
      intro m h
      rw [List.foldl_cons]
      split
      · next hd =>
        refine ih _ fun c hc => ?_
        rcases Memory.mem_write hc with rfl | hc
        · exact hd
        · exact h c hc
      · exact ih _ h
  exact this [] (by simp) c h

/-- Memories that agree on a range read the same there. -/
theorem Memory.readBytes_congr {m m' : Memory} {a n : Nat} (h : ∀ x, a ≤ x → x < a + n → m.read x = m'.read x) :
    m.readBytes a n = m'.readBytes a n := by
  apply List.map_congr_left
  intro i hi
  have := List.mem_range.1 hi
  exact h _ (by omega) (by omega)

end Sys2Proof.Machine
end

