-- ==== Sys2Proof/Laws/Modes.lean ====
section
/-! SUPPORT. Lengths of what the padding codec and the mode functions return (41_padding_codec.md R140, R141;
42_mode_engine.md R161 to R165). -/

namespace Sys2Proof.Machine

open Sys2Proof

theorem pad_length (b : List Byte) (bs : Nat) : (pad b bs).length = b.length + (bs - b.length % bs) := by
  simp [pad]

/-- A padded sequence is a whole, non-zero number of blocks. -/
theorem pad_length_mod (b : List Byte) (bs : Nat) (h : 0 < bs) : (pad b bs).length % bs = 0 := by
  have hm := Nat.mod_lt b.length h
  have hd := Nat.div_add_mod b.length bs
  have e : (pad b bs).length = bs * (b.length / bs + 1) := by rw [pad_length, Nat.mul_succ]; omega
  rw [e, Nat.mul_mod_right]

/-- What `Unpad` accepts is a shorter beginning of its input. -/
theorem unpad_take {b p : List Byte} {bs : Nat} (h : unpad b bs = some p) :
    ∃ k, 1 ≤ k ∧ k ≤ bs ∧ p = b.take (b.length - k) := by
  unfold unpad at h
  split at h; · cases h
  split at h; · cases h
  simp only at h
  split at h; · cases h
  next hk =>
    split at h
    · cases h
      exact ⟨_, by omega, by omega, rfl⟩
    · cases h

theorem unpad_length_le {b p : List Byte} {bs : Nat} (h : unpad b bs = some p) : p.length ≤ b.length := by
  obtain ⟨k, _, _, rfl⟩ := unpad_take h
  simp

@[simp] theorem cbcChain_length (p : Params) (k : List Byte) (c : Block) (qs : List Block) :
    (cbcChain p k c qs).length = qs.length := by
  induction qs generalizing c with
  | nil => rfl
  | cons q qs ih => simp [cbcChain, ih]

@[simp] theorem cbcUnchain_length (p : Params) (k : List Byte) (c : Block) (cs : List Block) :
    (cbcUnchain p k c cs).length = cs.length := by
  induction cs generalizing c with
  | nil => rfl
  | cons q qs ih => simp [cbcUnchain, ih]

theorem ecbEncrypt_length (p : Params) (k b : List Byte) :
    (ecbEncrypt p k b).length = b.length + (16 - b.length % 16) := by
  have := pad_length_mod b 16 (by decide)
  have := pad_length b 16
  simp only [ecbEncrypt, joinBlocks_length, List.length_map, blocks_length]
  omega

theorem cbcEncrypt_length (p : Params) (k : List Byte) (iv : Block) (b : List Byte) :
    (cbcEncrypt p k iv b).length = b.length + (16 - b.length % 16) := by
  have := pad_length_mod b 16 (by decide)
  have := pad_length b 16
  simp only [cbcEncrypt, joinBlocks_length, cbcChain_length, blocks_length]
  omega

@[simp] theorem keystream_length (p : Params) (k : List Byte) (nonce m : Nat) :
    (keystream p k nonce m).length = 16 * m := by simp [keystream]

@[simp] theorem ctrTransform_length (p : Params) (k : List Byte) (nonce : Nat) (b : List Byte) :
    (ctrTransform p k nonce b).length = b.length := by
  simp only [ctrTransform, xorBytes_length, List.length_take, keystream_length]
  omega

theorem ecbDecrypt_length_le {p : Params} {k c x : List Byte} (h : ecbDecrypt p k c = some x) :
    x.length ≤ c.length := by
  unfold ecbDecrypt at h
  split at h
  · refine Nat.le_trans (unpad_length_le h) ?_
    simp only [joinBlocks_length, List.length_map, blocks_length]; omega
  · cases h

theorem cbcDecrypt_length_le {p : Params} {k c x : List Byte} {iv : Block} (h : cbcDecrypt p k iv c = some x) :
    x.length ≤ c.length := by
  unfold cbcDecrypt at h
  split at h
  · refine Nat.le_trans (unpad_length_le h) ?_
    simp only [joinBlocks_length, cbcUnchain_length, blocks_length]; omega
  · cases h

theorem blockDecrypt_length_le {s : State} {x : List Byte} (h : blockDecrypt s = some x) :
    x.length ≤ s.len.toNat := by
  have hl : (srcBytes s).length = s.len.toNat := by simp [srcBytes]
  unfold blockDecrypt at h
  split at h
  · exact hl ▸ cbcDecrypt_length_le h
  · exact hl ▸ ecbDecrypt_length_le h

theorem wholeBlocks_iff (c : List Byte) : wholeBlocks c = true ↔ c.length ≠ 0 ∧ c.length % 16 = 0 := by
  simp [wholeBlocks]

/-- When `Unpad` accepts, in one condition (R141). -/
theorem unpad_eq (b : List Byte) (bs : Nat) : unpad b bs =
    if b.length % bs = 0 ∧ 0 < b.length ∧ 1 ≤ (b.getD (b.length - 1) 0).toNat ∧
      (b.getD (b.length - 1) 0).toNat ≤ bs ∧
      (List.range (b.getD (b.length - 1) 0).toNat).all
        (fun i => b.getD (b.length - (i + 1)) 0 == b.getD (b.length - 1) 0) = true
    then some (b.take (b.length - (b.getD (b.length - 1) 0).toNat)) else none := by
  unfold unpad
  by_cases h1 : b.length % bs = 0
  case neg => rw [if_pos h1, if_neg (fun h => h1 h.1)]
  rw [if_neg (not_not.2 h1)]
  by_cases h2 : b.length = 0
  · rw [if_pos h2, if_neg (by omega)]
  rw [if_neg h2]
  dsimp only
  by_cases h3 : (b.getD (b.length - 1) 0).toNat < 1 ∨ bs < (b.getD (b.length - 1) 0).toNat
  · rw [if_pos h3, if_neg (by omega)]
  rw [if_neg h3]
  by_cases h4 : (List.range (b.getD (b.length - 1) 0).toNat).all
      (fun i => b.getD (b.length - (i + 1)) 0 == b.getD (b.length - 1) 0) = true
  · rw [if_pos h4, if_pos ⟨h1, by omega, by omega, by omega, h4⟩]
  · rw [if_neg h4, if_neg (fun h => h4 h.2.2.2.2)]

/-- Block `j` of a CBC encryption (R163). -/
theorem cbcChain_getElem (p : Params) (k : List Byte) (c : Block) (qs : List Block) (j : Nat)
    (h : j < (cbcChain p k c qs).length) :
    (cbcChain p k c qs)[j] = encBlock p k (xorBlock (qs[j]'(by simpa using h))
      (if j = 0 then c else (cbcChain p k c qs).getD (j - 1) c)) := by
  induction qs generalizing c j with
  | nil => simp at h
  | cons q qs ih =>
    cases j with
    | zero => rfl
    | succ j =>
      have h' : j < (cbcChain p k (encBlock p k (xorBlock q c)) qs).length := by simpa [cbcChain] using h
      simp only [cbcChain, List.getElem_cons_succ]
      rw [ih _ j h']
      congr 2
      cases j with
      | zero => rfl
      | succ j =>
        rw [if_neg (by omega), if_neg (by omega)]
        simp only [Nat.add_sub_cancel, List.getD_cons_succ]
        rw [List.getD_eq_getElem _ _ (by omega), List.getD_eq_getElem _ _ (by omega)]

/-- Block `j` of a CBC decryption (R164). -/
theorem cbcUnchain_getElem (p : Params) (k : List Byte) (c : Block) (cs : List Block) (j : Nat)
    (h : j < (cbcUnchain p k c cs).length) :
    (cbcUnchain p k c cs)[j] = xorBlock (decBlock p k (cs[j]'(by simpa using h)))
      (if j = 0 then c else cs.getD (j - 1) c) := by
  induction cs generalizing c j with
  | nil => simp at h
  | cons q qs ih =>
    cases j with
    | zero => rfl
    | succ j =>
      have h' : j < (cbcUnchain p k q qs).length := by simpa [cbcUnchain] using h
      have h'' : j < qs.length := by simpa using h'
      simp only [cbcUnchain, List.getElem_cons_succ]
      rw [ih _ j h']
      congr 1
      cases j with
      | zero => rfl
      | succ j =>
        rw [if_neg (by omega), if_neg (by omega)]
        simp only [Nat.add_sub_cancel, List.getD_cons_succ]
        rw [List.getD_eq_getElem _ _ (by omega), List.getD_eq_getElem _ _ (by omega)]

end Sys2Proof.Machine
end

