-- ==== Sys2Proof/Laws/State.lean ====
section
/-! SUPPORT. What each named update of State leaves in each field, so that no proof unfolds a record update. -/

namespace Sys2Proof.Machine

open Sys2Proof

/-! ### setResult -/

@[simp] theorem setResult_mode (e : Bool) (c : BitVec 4) (p : Bool) (n : Nat) (s : State) : (setResult e c p n s).mode = s.mode := rfl
@[simp] theorem setResult_keyLock (e : Bool) (c : BitVec 4) (p : Bool) (n : Nat) (s : State) : (setResult e c p n s).keyLock = s.keyLock := rfl
@[simp] theorem setResult_err (e : Bool) (c : BitVec 4) (p : Bool) (n : Nat) (s : State) : (setResult e c p n s).err = e := rfl
@[simp] theorem setResult_errCode (e : Bool) (c : BitVec 4) (p : Bool) (n : Nat) (s : State) : (setResult e c p n s).errCode = c := rfl
@[simp] theorem setResult_padOk (e : Bool) (c : BitVec 4) (p : Bool) (n : Nat) (s : State) : (setResult e c p n s).padOk = p := rfl
@[simp] theorem setResult_outLen (e : Bool) (c : BitVec 4) (p : Bool) (n : Nat) (s : State) : (setResult e c p n s).outLen = BitVec.ofNat 32 n := rfl
@[simp] theorem setResult_src (e : Bool) (c : BitVec 4) (p : Bool) (n : Nat) (s : State) : (setResult e c p n s).src = s.src := rfl
@[simp] theorem setResult_len (e : Bool) (c : BitVec 4) (p : Bool) (n : Nat) (s : State) : (setResult e c p n s).len = s.len := rfl
@[simp] theorem setResult_dst (e : Bool) (c : BitVec 4) (p : Bool) (n : Nat) (s : State) : (setResult e c p n s).dst = s.dst := rfl
@[simp] theorem setResult_aux (e : Bool) (c : BitVec 4) (p : Bool) (n : Nat) (s : State) : (setResult e c p n s).aux = s.aux := rfl
@[simp] theorem setResult_auxLen (e : Bool) (c : BitVec 4) (p : Bool) (n : Nat) (s : State) : (setResult e c p n s).auxLen = s.auxLen := rfl
@[simp] theorem setResult_iv (e : Bool) (c : BitVec 4) (p : Bool) (n : Nat) (s : State) : (setResult e c p n s).iv = s.iv := rfl
@[simp] theorem setResult_nonceLo (e : Bool) (c : BitVec 4) (p : Bool) (n : Nat) (s : State) : (setResult e c p n s).nonceLo = s.nonceLo := rfl
@[simp] theorem setResult_nonceHi (e : Bool) (c : BitVec 4) (p : Bool) (n : Nat) (s : State) : (setResult e c p n s).nonceHi = s.nonceHi := rfl
@[simp] theorem setResult_key (e : Bool) (c : BitVec 4) (p : Bool) (n : Nat) (s : State) : (setResult e c p n s).key = s.key := rfl
@[simp] theorem setResult_ivMask (e : Bool) (c : BitVec 4) (p : Bool) (n : Nat) (s : State) : (setResult e c p n s).ivMask = s.ivMask := rfl
@[simp] theorem setResult_nonceMask (e : Bool) (c : BitVec 4) (p : Bool) (n : Nat) (s : State) : (setResult e c p n s).nonceMask = s.nonceMask := rfl
@[simp] theorem setResult_keyMask (e : Bool) (c : BitVec 4) (p : Bool) (n : Nat) (s : State) : (setResult e c p n s).keyMask = s.keyMask := rfl
@[simp] theorem setResult_buf (e : Bool) (c : BitVec 4) (p : Bool) (n : Nat) (s : State) : (setResult e c p n s).buf = s.buf := rfl
@[simp] theorem setResult_params (e : Bool) (c : BitVec 4) (p : Bool) (n : Nat) (s : State) : (setResult e c p n s).params = s.params := rfl
@[simp] theorem setResult_pending (e : Bool) (c : BitVec 4) (p : Bool) (n : Nat) (s : State) : (setResult e c p n s).pending = s.pending := rfl
@[simp] theorem setResult_results (e : Bool) (c : BitVec 4) (p : Bool) (n : Nat) (s : State) : (setResult e c p n s).results = s.results := rfl

/-! ### raiseError -/

@[simp] theorem raiseError_mode (e : ErrorKind) (s : State) : (raiseError e s).mode = s.mode := rfl
@[simp] theorem raiseError_keyLock (e : ErrorKind) (s : State) : (raiseError e s).keyLock = s.keyLock := rfl
@[simp] theorem raiseError_err (e : ErrorKind) (s : State) : (raiseError e s).err = true := rfl
@[simp] theorem raiseError_errCode (e : ErrorKind) (s : State) : (raiseError e s).errCode = e.code := rfl
@[simp] theorem raiseError_padOk (e : ErrorKind) (s : State) : (raiseError e s).padOk = false := rfl
@[simp] theorem raiseError_outLen (e : ErrorKind) (s : State) : (raiseError e s).outLen = 0 := rfl
@[simp] theorem raiseError_src (e : ErrorKind) (s : State) : (raiseError e s).src = s.src := rfl
@[simp] theorem raiseError_len (e : ErrorKind) (s : State) : (raiseError e s).len = s.len := rfl
@[simp] theorem raiseError_dst (e : ErrorKind) (s : State) : (raiseError e s).dst = s.dst := rfl
@[simp] theorem raiseError_aux (e : ErrorKind) (s : State) : (raiseError e s).aux = s.aux := rfl
@[simp] theorem raiseError_auxLen (e : ErrorKind) (s : State) : (raiseError e s).auxLen = s.auxLen := rfl
@[simp] theorem raiseError_iv (e : ErrorKind) (s : State) : (raiseError e s).iv = s.iv := rfl
@[simp] theorem raiseError_nonceLo (e : ErrorKind) (s : State) : (raiseError e s).nonceLo = s.nonceLo := rfl
@[simp] theorem raiseError_nonceHi (e : ErrorKind) (s : State) : (raiseError e s).nonceHi = s.nonceHi := rfl
@[simp] theorem raiseError_key (e : ErrorKind) (s : State) : (raiseError e s).key = s.key := rfl
@[simp] theorem raiseError_ivMask (e : ErrorKind) (s : State) : (raiseError e s).ivMask = s.ivMask := rfl
@[simp] theorem raiseError_nonceMask (e : ErrorKind) (s : State) : (raiseError e s).nonceMask = s.nonceMask := rfl
@[simp] theorem raiseError_keyMask (e : ErrorKind) (s : State) : (raiseError e s).keyMask = s.keyMask := rfl
@[simp] theorem raiseError_buf (e : ErrorKind) (s : State) : (raiseError e s).buf = s.buf := rfl
@[simp] theorem raiseError_params (e : ErrorKind) (s : State) : (raiseError e s).params = s.params := rfl
@[simp] theorem raiseError_pending (e : ErrorKind) (s : State) : (raiseError e s).pending = s.pending := rfl
@[simp] theorem raiseError_results (e : ErrorKind) (s : State) : (raiseError e s).results = s.results := rfl

/-! ### complete -/

@[simp] theorem complete_mode (out : List Byte) (p : Bool) (s : State) : (complete out p s).mode = s.mode := rfl
@[simp] theorem complete_keyLock (out : List Byte) (p : Bool) (s : State) : (complete out p s).keyLock = s.keyLock := rfl
@[simp] theorem complete_err (out : List Byte) (p : Bool) (s : State) : (complete out p s).err = false := rfl
@[simp] theorem complete_errCode (out : List Byte) (p : Bool) (s : State) : (complete out p s).errCode = 0 := rfl
@[simp] theorem complete_padOk (out : List Byte) (p : Bool) (s : State) : (complete out p s).padOk = p := rfl
@[simp] theorem complete_outLen (out : List Byte) (p : Bool) (s : State) : (complete out p s).outLen = BitVec.ofNat 32 out.length := rfl
@[simp] theorem complete_src (out : List Byte) (p : Bool) (s : State) : (complete out p s).src = s.src := rfl
@[simp] theorem complete_len (out : List Byte) (p : Bool) (s : State) : (complete out p s).len = s.len := rfl
@[simp] theorem complete_dst (out : List Byte) (p : Bool) (s : State) : (complete out p s).dst = s.dst := rfl
@[simp] theorem complete_aux (out : List Byte) (p : Bool) (s : State) : (complete out p s).aux = s.aux := rfl
@[simp] theorem complete_auxLen (out : List Byte) (p : Bool) (s : State) : (complete out p s).auxLen = s.auxLen := rfl
@[simp] theorem complete_iv (out : List Byte) (p : Bool) (s : State) : (complete out p s).iv = s.iv := rfl
@[simp] theorem complete_nonceLo (out : List Byte) (p : Bool) (s : State) : (complete out p s).nonceLo = s.nonceLo := rfl
@[simp] theorem complete_nonceHi (out : List Byte) (p : Bool) (s : State) : (complete out p s).nonceHi = s.nonceHi := rfl
@[simp] theorem complete_key (out : List Byte) (p : Bool) (s : State) : (complete out p s).key = s.key := rfl
@[simp] theorem complete_ivMask (out : List Byte) (p : Bool) (s : State) : (complete out p s).ivMask = s.ivMask := rfl
@[simp] theorem complete_nonceMask (out : List Byte) (p : Bool) (s : State) : (complete out p s).nonceMask = s.nonceMask := rfl
@[simp] theorem complete_keyMask (out : List Byte) (p : Bool) (s : State) : (complete out p s).keyMask = s.keyMask := rfl
@[simp] theorem complete_buf (out : List Byte) (p : Bool) (s : State) : (complete out p s).buf = s.buf.writeBytes s.dst.toNat out := rfl
@[simp] theorem complete_params (out : List Byte) (p : Bool) (s : State) : (complete out p s).params = s.params := rfl
@[simp] theorem complete_pending (out : List Byte) (p : Bool) (s : State) : (complete out p s).pending = s.pending := rfl
@[simp] theorem complete_results (out : List Byte) (p : Bool) (s : State) : (complete out p s).results = s.results := rfl

/-! ### consume -/

@[simp] theorem consume_mode (i : Instr) (s : State) : (consume i s).mode = s.mode := rfl
@[simp] theorem consume_keyLock (i : Instr) (s : State) : (consume i s).keyLock = s.keyLock := rfl
@[simp] theorem consume_err (i : Instr) (s : State) : (consume i s).err = s.err := rfl
@[simp] theorem consume_errCode (i : Instr) (s : State) : (consume i s).errCode = s.errCode := rfl
@[simp] theorem consume_padOk (i : Instr) (s : State) : (consume i s).padOk = s.padOk := rfl
@[simp] theorem consume_outLen (i : Instr) (s : State) : (consume i s).outLen = s.outLen := rfl
@[simp] theorem consume_src (i : Instr) (s : State) : (consume i s).src = s.src := rfl
@[simp] theorem consume_len (i : Instr) (s : State) : (consume i s).len = s.len := rfl
@[simp] theorem consume_dst (i : Instr) (s : State) : (consume i s).dst = s.dst := rfl
@[simp] theorem consume_aux (i : Instr) (s : State) : (consume i s).aux = s.aux := rfl
@[simp] theorem consume_auxLen (i : Instr) (s : State) : (consume i s).auxLen = s.auxLen := rfl
@[simp] theorem consume_iv (i : Instr) (s : State) : (consume i s).iv = s.iv := rfl
@[simp] theorem consume_nonceLo (i : Instr) (s : State) : (consume i s).nonceLo = s.nonceLo := rfl
@[simp] theorem consume_nonceHi (i : Instr) (s : State) : (consume i s).nonceHi = s.nonceHi := rfl
@[simp] theorem consume_key (i : Instr) (s : State) : (consume i s).key = s.key := rfl
@[simp] theorem consume_ivMask (i : Instr) (s : State) : (consume i s).ivMask = if needsIV i s.mode then 0 else s.ivMask := rfl
@[simp] theorem consume_nonceMask (i : Instr) (s : State) : (consume i s).nonceMask = if needsNonce i s.mode then 0 else s.nonceMask := rfl
@[simp] theorem consume_keyMask (i : Instr) (s : State) : (consume i s).keyMask = s.keyMask := rfl
@[simp] theorem consume_buf (i : Instr) (s : State) : (consume i s).buf = s.buf := rfl
@[simp] theorem consume_params (i : Instr) (s : State) : (consume i s).params = s.params := rfl
@[simp] theorem consume_pending (i : Instr) (s : State) : (consume i s).pending = s.pending := rfl
@[simp] theorem consume_results (i : Instr) (s : State) : (consume i s).results = s.results := rfl

/-! ### deliver -/

@[simp] theorem deliver_mode (v : Word) (s : State) : (deliver v s).mode = s.mode := rfl
@[simp] theorem deliver_keyLock (v : Word) (s : State) : (deliver v s).keyLock = s.keyLock := rfl
@[simp] theorem deliver_err (v : Word) (s : State) : (deliver v s).err = s.err := rfl
@[simp] theorem deliver_errCode (v : Word) (s : State) : (deliver v s).errCode = s.errCode := rfl
@[simp] theorem deliver_padOk (v : Word) (s : State) : (deliver v s).padOk = s.padOk := rfl
@[simp] theorem deliver_outLen (v : Word) (s : State) : (deliver v s).outLen = s.outLen := rfl
@[simp] theorem deliver_src (v : Word) (s : State) : (deliver v s).src = s.src := rfl
@[simp] theorem deliver_len (v : Word) (s : State) : (deliver v s).len = s.len := rfl
@[simp] theorem deliver_dst (v : Word) (s : State) : (deliver v s).dst = s.dst := rfl
@[simp] theorem deliver_aux (v : Word) (s : State) : (deliver v s).aux = s.aux := rfl
@[simp] theorem deliver_auxLen (v : Word) (s : State) : (deliver v s).auxLen = s.auxLen := rfl
@[simp] theorem deliver_iv (v : Word) (s : State) : (deliver v s).iv = s.iv := rfl
@[simp] theorem deliver_nonceLo (v : Word) (s : State) : (deliver v s).nonceLo = s.nonceLo := rfl
@[simp] theorem deliver_nonceHi (v : Word) (s : State) : (deliver v s).nonceHi = s.nonceHi := rfl
@[simp] theorem deliver_key (v : Word) (s : State) : (deliver v s).key = s.key := rfl
@[simp] theorem deliver_ivMask (v : Word) (s : State) : (deliver v s).ivMask = s.ivMask := rfl
@[simp] theorem deliver_nonceMask (v : Word) (s : State) : (deliver v s).nonceMask = s.nonceMask := rfl
@[simp] theorem deliver_keyMask (v : Word) (s : State) : (deliver v s).keyMask = s.keyMask := rfl
@[simp] theorem deliver_buf (v : Word) (s : State) : (deliver v s).buf = s.buf := rfl
@[simp] theorem deliver_params (v : Word) (s : State) : (deliver v s).params = s.params := rfl
@[simp] theorem deliver_pending (v : Word) (s : State) : (deliver v s).pending = s.pending := rfl
@[simp] theorem deliver_results (v : Word) (s : State) : (deliver v s).results = s.results ++ [v] := rfl

/-! ### bufWrite -/

@[simp] theorem bufWrite_mode (w a : Nat) (v : Word) (s : State) : (bufWrite w a v s).mode = s.mode := rfl
@[simp] theorem bufWrite_keyLock (w a : Nat) (v : Word) (s : State) : (bufWrite w a v s).keyLock = s.keyLock := rfl
@[simp] theorem bufWrite_err (w a : Nat) (v : Word) (s : State) : (bufWrite w a v s).err = s.err := rfl
@[simp] theorem bufWrite_errCode (w a : Nat) (v : Word) (s : State) : (bufWrite w a v s).errCode = s.errCode := rfl
@[simp] theorem bufWrite_padOk (w a : Nat) (v : Word) (s : State) : (bufWrite w a v s).padOk = s.padOk := rfl
@[simp] theorem bufWrite_outLen (w a : Nat) (v : Word) (s : State) : (bufWrite w a v s).outLen = s.outLen := rfl
@[simp] theorem bufWrite_src (w a : Nat) (v : Word) (s : State) : (bufWrite w a v s).src = s.src := rfl
@[simp] theorem bufWrite_len (w a : Nat) (v : Word) (s : State) : (bufWrite w a v s).len = s.len := rfl
@[simp] theorem bufWrite_dst (w a : Nat) (v : Word) (s : State) : (bufWrite w a v s).dst = s.dst := rfl
@[simp] theorem bufWrite_aux (w a : Nat) (v : Word) (s : State) : (bufWrite w a v s).aux = s.aux := rfl
@[simp] theorem bufWrite_auxLen (w a : Nat) (v : Word) (s : State) : (bufWrite w a v s).auxLen = s.auxLen := rfl
@[simp] theorem bufWrite_iv (w a : Nat) (v : Word) (s : State) : (bufWrite w a v s).iv = s.iv := rfl
@[simp] theorem bufWrite_nonceLo (w a : Nat) (v : Word) (s : State) : (bufWrite w a v s).nonceLo = s.nonceLo := rfl
@[simp] theorem bufWrite_nonceHi (w a : Nat) (v : Word) (s : State) : (bufWrite w a v s).nonceHi = s.nonceHi := rfl
@[simp] theorem bufWrite_key (w a : Nat) (v : Word) (s : State) : (bufWrite w a v s).key = s.key := rfl
@[simp] theorem bufWrite_ivMask (w a : Nat) (v : Word) (s : State) : (bufWrite w a v s).ivMask = s.ivMask := rfl
@[simp] theorem bufWrite_nonceMask (w a : Nat) (v : Word) (s : State) : (bufWrite w a v s).nonceMask = s.nonceMask := rfl
@[simp] theorem bufWrite_keyMask (w a : Nat) (v : Word) (s : State) : (bufWrite w a v s).keyMask = s.keyMask := rfl
@[simp] theorem bufWrite_buf (w a : Nat) (v : Word) (s : State) : (bufWrite w a v s).buf = s.buf.writeBytes a (wordBytes w v) := rfl
@[simp] theorem bufWrite_params (w a : Nat) (v : Word) (s : State) : (bufWrite w a v s).params = s.params := rfl
@[simp] theorem bufWrite_pending (w a : Nat) (v : Word) (s : State) : (bufWrite w a v s).pending = s.pending := rfl
@[simp] theorem bufWrite_results (w a : Nat) (v : Word) (s : State) : (bufWrite w a v s).results = s.results := rfl

/-! ### writeCtrl -/

@[simp] theorem writeCtrl_mode (v : Word) (s : State) : (writeCtrl v s).mode = v.extractLsb' 0 2 := rfl
@[simp] theorem writeCtrl_keyLock (v : Word) (s : State) : (writeCtrl v s).keyLock = (s.keyLock || v.getLsbD 8) := rfl
@[simp] theorem writeCtrl_err (v : Word) (s : State) : (writeCtrl v s).err = s.err := rfl
@[simp] theorem writeCtrl_errCode (v : Word) (s : State) : (writeCtrl v s).errCode = s.errCode := rfl
@[simp] theorem writeCtrl_padOk (v : Word) (s : State) : (writeCtrl v s).padOk = s.padOk := rfl
@[simp] theorem writeCtrl_outLen (v : Word) (s : State) : (writeCtrl v s).outLen = s.outLen := rfl
@[simp] theorem writeCtrl_src (v : Word) (s : State) : (writeCtrl v s).src = s.src := rfl
@[simp] theorem writeCtrl_len (v : Word) (s : State) : (writeCtrl v s).len = s.len := rfl
@[simp] theorem writeCtrl_dst (v : Word) (s : State) : (writeCtrl v s).dst = s.dst := rfl
@[simp] theorem writeCtrl_aux (v : Word) (s : State) : (writeCtrl v s).aux = s.aux := rfl
@[simp] theorem writeCtrl_auxLen (v : Word) (s : State) : (writeCtrl v s).auxLen = s.auxLen := rfl
@[simp] theorem writeCtrl_iv (v : Word) (s : State) : (writeCtrl v s).iv = s.iv := rfl
@[simp] theorem writeCtrl_nonceLo (v : Word) (s : State) : (writeCtrl v s).nonceLo = s.nonceLo := rfl
@[simp] theorem writeCtrl_nonceHi (v : Word) (s : State) : (writeCtrl v s).nonceHi = s.nonceHi := rfl
@[simp] theorem writeCtrl_key (v : Word) (s : State) : (writeCtrl v s).key = s.key := rfl
@[simp] theorem writeCtrl_ivMask (v : Word) (s : State) : (writeCtrl v s).ivMask = s.ivMask := rfl
@[simp] theorem writeCtrl_nonceMask (v : Word) (s : State) : (writeCtrl v s).nonceMask = s.nonceMask := rfl
@[simp] theorem writeCtrl_keyMask (v : Word) (s : State) : (writeCtrl v s).keyMask = s.keyMask := rfl
@[simp] theorem writeCtrl_buf (v : Word) (s : State) : (writeCtrl v s).buf = s.buf := rfl
@[simp] theorem writeCtrl_params (v : Word) (s : State) : (writeCtrl v s).params = s.params := rfl
@[simp] theorem writeCtrl_pending (v : Word) (s : State) : (writeCtrl v s).pending = s.pending := rfl
@[simp] theorem writeCtrl_results (v : Word) (s : State) : (writeCtrl v s).results = s.results := rfl

/-! ### applyReset -/

@[simp] theorem applyReset_mode (d : ResetDraw) (s : State) : (applyReset d s).mode = 0 := rfl
@[simp] theorem applyReset_keyLock (d : ResetDraw) (s : State) : (applyReset d s).keyLock = false := rfl
@[simp] theorem applyReset_err (d : ResetDraw) (s : State) : (applyReset d s).err = false := rfl
@[simp] theorem applyReset_errCode (d : ResetDraw) (s : State) : (applyReset d s).errCode = 0 := rfl
@[simp] theorem applyReset_padOk (d : ResetDraw) (s : State) : (applyReset d s).padOk = false := rfl
@[simp] theorem applyReset_outLen (d : ResetDraw) (s : State) : (applyReset d s).outLen = 0 := rfl
@[simp] theorem applyReset_src (d : ResetDraw) (s : State) : (applyReset d s).src = 0 := rfl
@[simp] theorem applyReset_len (d : ResetDraw) (s : State) : (applyReset d s).len = 0 := rfl
@[simp] theorem applyReset_dst (d : ResetDraw) (s : State) : (applyReset d s).dst = 0 := rfl
@[simp] theorem applyReset_aux (d : ResetDraw) (s : State) : (applyReset d s).aux = 0 := rfl
@[simp] theorem applyReset_auxLen (d : ResetDraw) (s : State) : (applyReset d s).auxLen = 0 := rfl
@[simp] theorem applyReset_iv (d : ResetDraw) (s : State) : (applyReset d s).iv = d.iv := rfl
@[simp] theorem applyReset_nonceLo (d : ResetDraw) (s : State) : (applyReset d s).nonceLo = d.nonceLo := rfl
@[simp] theorem applyReset_nonceHi (d : ResetDraw) (s : State) : (applyReset d s).nonceHi = d.nonceHi := rfl
@[simp] theorem applyReset_key (d : ResetDraw) (s : State) : (applyReset d s).key = d.key := rfl
@[simp] theorem applyReset_ivMask (d : ResetDraw) (s : State) : (applyReset d s).ivMask = 0 := rfl
@[simp] theorem applyReset_nonceMask (d : ResetDraw) (s : State) : (applyReset d s).nonceMask = 0 := rfl
@[simp] theorem applyReset_keyMask (d : ResetDraw) (s : State) : (applyReset d s).keyMask = 0 := rfl
@[simp] theorem applyReset_buf (d : ResetDraw) (s : State) : (applyReset d s).buf = Memory.ofCells s.params.memBytes d.buf := rfl
@[simp] theorem applyReset_params (d : ResetDraw) (s : State) : (applyReset d s).params = s.params := rfl
@[simp] theorem applyReset_pending (d : ResetDraw) (s : State) : (applyReset d s).pending = s.pending := rfl
@[simp] theorem applyReset_results (d : ResetDraw) (s : State) : (applyReset d s).results = s.results := rfl

/-- A mask bit after one is set (R41). -/
theorem getLsbD_setMaskBit {n : Nat} (m : BitVec n) (k j : Nat) (h : j < n) :
    (setMaskBit m k).getLsbD j = (m.getLsbD j || decide (j = k)) := by
  simp only [setMaskBit, BitVec.getLsbD_or, BitVec.getLsbD_shiftLeft, h, decide_true, Bool.true_and]
  congr 1
  by_cases hk : j = k
  · subst hk; simp; omega
  · by_cases hlt : j < k
    · simp [hlt, hk]
    · simp [hk, BitVec.getLsbD_one]; omega

end Sys2Proof.Machine
end

