-- ==== Sys2Proof/Laws/Ops.lean ====
section
/-! SUPPORT. What the command procedure can do (60_exceptions.md R200), said once. -/

namespace Sys2Proof.Machine

open Sys2Proof

/-- The body each command runs as step 7. -/
def bodyOf : Instr → State → BodyResult
  | .pad bs => padBody bs
  | .unpad bs => unpadBody bs
  | .xor => xorBody
  | .blkEnc => blkEncBody
  | .blkDec => blkDecBody
  | .enc => encBody
  | .dec => decBody
  | .check => checkBody
  | .ctrXcrypt => ctrBody

/-- Every command is the procedure with its body. -/
theorem exec_eq (i : Instr) (s : State) : exec i s = .next (execute i (bodyOf i) s) := by
  cases i <;> rfl

theorem exec_next {i : Instr} {s t : State} : exec i s = .next t ↔ t = execute i (bodyOf i) s := by
  rw [exec_eq]
  exact ⟨fun h => (Host.Outcome.next.inj h).symm, fun h => h ▸ rfl⟩

@[simp] theorem srcBytes_length (s : State) : (srcBytes s).length = s.len.toNat := by simp [srcBytes]

@[simp] theorem auxBytes_length (s : State) : (auxBytes s).length = s.auxLen.toNat := by simp [auxBytes]

theorem firstFailure_none {l : List (Bool × ErrorKind)} :
    firstFailure l = none ↔ ∀ c ∈ l, c.1 = true := by
  induction l with
  | nil => simp [firstFailure]
  | cons c l ih =>
    obtain ⟨ok, e⟩ := c
    cases ok <;> simp [firstFailure, ih]

theorem firstFailure_mem {l : List (Bool × ErrorKind)} {e : ErrorKind} (h : firstFailure l = some e) :
    (false, e) ∈ l := by
  induction l with
  | nil => simp [firstFailure] at h
  | cons c l ih =>
    obtain ⟨ok, e'⟩ := c
    cases ok
    · simp only [firstFailure, Bool.false_eq_true, if_false, Option.some.injEq] at h
      simp [h]
    · simp only [firstFailure, if_true] at h
      exact List.mem_cons_of_mem _ (ih h)

/-- The checks of steps 1 to 6 never raise INVALID_PADDING. -/
theorem firstFailure_checks_ne {i : Instr} {s : State} {e : ErrorKind} (h : firstFailure (checks i s) = some e) :
    e ≠ .invalidPadding := by
  have := firstFailure_mem h
  simp only [checks, List.mem_cons, Prod.mk.injEq, List.not_mem_nil, or_false] at this
  rintro rfl
  simp at this

/-- All that a command can do: end in the error of its first failing check, complete, or end in INVALID_PADDING
after consumption. -/
theorem execute_cases (i : Instr) (body : State → BodyResult) (s : State) :
    (∃ e, firstFailure (checks i s) = some e ∧ execute i body s = raiseError e s) ∨
    (∃ out p, firstFailure (checks i s) = none ∧ body s = .complete out p ∧
      execute i body s = complete out p (consume i s)) ∨
    (firstFailure (checks i s) = none ∧ body s = .invalidPadding ∧
      execute i body s = raiseError .invalidPadding (consume i s)) := by
  unfold execute
  cases hf : firstFailure (checks i s) with
  | some e => exact .inl ⟨e, rfl, rfl⟩
  | none =>
    cases hb : body s with
    | complete out p => exact .inr (.inl ⟨out, p, rfl, rfl, rfl⟩)
    | invalidPadding => exact .inr (.inr ⟨rfl, rfl, rfl⟩)

/-- A command that passes its checks and whose body completes. -/
theorem exec_complete {i : Instr} {s : State} {out : List Byte} {p : Bool}
    (h : firstFailure (checks i s) = none) (hb : bodyOf i s = .complete out p) :
    exec i s = .next (complete out p (consume i s)) := by
  rw [exec_eq, execute, h]
  simp only [hb, finish]

/-- A command that passes its checks and whose body rejects its padding. -/
theorem exec_invalidPadding {i : Instr} {s : State}
    (h : firstFailure (checks i s) = none) (hb : bodyOf i s = .invalidPadding) :
    exec i s = .next (raiseError .invalidPadding (consume i s)) := by
  rw [exec_eq, execute, h]
  simp only [hb, finish]

/-- A command that fails a check. -/
theorem exec_error {i : Instr} {s : State} {e : ErrorKind} (h : firstFailure (checks i s) = some e) :
    exec i s = .next (raiseError e s) := by
  rw [exec_eq, execute, h]

/-- What a success leaves in BUF: the output at DST, and every other byte as it was (R210). -/
theorem complete_writes {s : State} (h : s.buf.wf = true) (out : List Byte) (p : Bool) :
    (complete out p s).buf.readBytes s.dst.toNat out.length = out ∧
    ∀ a, a < s.dst.toNat ∨ s.dst.toNat + out.length ≤ a → (complete out p s).buf.read a = s.buf.read a :=
  ⟨Memory.readBytes_writeBytes_same h _ _, fun a ha => by
    show Memory.read (Memory.writeBytes _ _ _) a = _
    rw [Memory.read_writeBytes h, if_neg (by omega)]⟩

/-- The checks, passed one by one. -/
theorem checks_pass {i : Instr} {s : State} :
    firstFailure (checks i s) = none ↔
      i.wellFormed = true ∧ modeSupported i s.mode = true ∧
      inRange s s.src.toNat s.len.toNat = true ∧
      (usesAux i = true → inRange s s.aux.toNat s.auxLen.toNat = true) ∧
      (usesDst i = true → inRange s s.dst.toNat (maxOut i s.mode s.len.toNat) = true) ∧
      (usesAux i = true → s.len = s.auxLen) ∧
      (oneBlock i = true → s.len = 16) ∧
      (needsKey i = true → keyLoaded s = true) ∧
      (needsIV i s.mode = true → ivValid s = true) ∧
      (needsNonce i s.mode = true → nonceValid s = true) := by
  have imp : ∀ a b : Bool, (!a || b) = true ↔ (a = true → b = true) := by decide
  rw [firstFailure_none]
  simp only [checks, List.forall_mem_cons, List.not_mem_nil, false_implies, implies_true, and_true, imp, beq_iff_eq]

/-- A body's output fits in MaxOut (R204, R210). -/
theorem bodyOf_length_le {i : Instr} {s : State} {out : List Byte} {p : Bool}
    (h : bodyOf i s = .complete out p) : out.length ≤ maxOut i s.mode s.len.toNat := by
  have accept : ∀ {o : Option (List Byte)}, acceptOrRaise o = .complete out p → o = some out := by
    intro o ho
    cases o with
    | none => cases ho
    | some x => cases ho; rfl
  cases i with
  | pad bs =>
    cases h
    simp [pad_length, maxOut]
  | unpad bs =>
    have := unpad_length_le (accept h)
    simpa [maxOut] using this
  | xor =>
    cases h
    simp only [xorBytes_length, srcBytes_length, maxOut]; omega
  | blkEnc => cases h; simp [maxOut]
  | blkDec => cases h; simp [maxOut]
  | enc =>
    simp only [bodyOf, encBody] at h
    split at h
    · next hm => cases h; simp [maxOut, hm]
    · next hm =>
      split at h
      · cases h
        simp only [cbcEncrypt_length, srcBytes_length, maxOut, if_neg hm]; omega
      · cases h
        simp only [ecbEncrypt_length, srcBytes_length, maxOut, if_neg hm]; omega
  | dec =>
    simp only [bodyOf, decBody] at h
    split at h
    · cases h; simp [maxOut]
    · exact blockDecrypt_length_le (accept h)
  | check => cases h; simp [maxOut]
  | ctrXcrypt => cases h; simp [maxOut]

end Sys2Proof.Machine
end

