-- ==== Sys2Proof/Laws/Commands.lean ====
section
/-! SUPPORT. The command procedure in the terms of Safety.lean: when a command passes its checks, and what it then
leaves (60_exceptions.md R200, R209, R210). -/

namespace Sys2Proof.Machine

open Sys2Proof

/-- The checks of steps 1 to 6, in the terms the statements use. -/
theorem checks_pass_iff {i : Instr} {s : State} :
    firstFailure (checks i s) = none ↔
      i.wellFormed = true ∧ modeSupported i s.mode = true ∧ s.SrcFits ∧
      (usesAux i = true → s.AuxFits) ∧ (usesDst i = true → s.DstFits (maxOut i s.mode s.len.toNat)) ∧
      (usesAux i = true → s.len = s.auxLen) ∧ (oneBlock i = true → s.len = 16) ∧
      (needsKey i = true → s.KeyLoaded) ∧ (needsIV i s.mode = true → s.IvValid) ∧
      (needsNonce i s.mode = true → s.NonceValid) := by
  rw [checks_pass]
  simp only [inRange, keyLoaded, ivValid, nonceValid, decide_eq_true_eq, beq_iff_eq]

/-- All that a successful body leaves: the registers of `consume`, the result fields, the output at DST, and every
other byte as it was. -/
theorem exec_success {i : Instr} {s : State} {out : List Byte} {p : Bool} (hwf : s.buf.wf = true)
    (h : firstFailure (checks i s) = none) (hb : bodyOf i s = .complete out p) :
    ∃ t, exec i s = .next t ∧
      t = { consume i s with
        buf := t.buf, outLen := BitVec.ofNat 32 out.length, err := false, errCode := 0, padOk := p } ∧
      t.buf.readBytes s.dst.toNat out.length = out ∧
      (∀ a, a < s.dst.toNat ∨ s.dst.toNat + out.length ≤ a → t.buf.read a = s.buf.read a) :=
  ⟨_, exec_complete h hb, rfl, complete_writes (s := consume i s) hwf out p⟩

/-- A command that ends without an error passed its checks and completed. -/
theorem exec_succeeded {i : Instr} {s t : State} (h : exec i s = .next t) (he : t.err = false) :
    ∃ out p, firstFailure (checks i s) = none ∧ bodyOf i s = .complete out p ∧
      t = complete out p (consume i s) := by
  rw [exec_next] at h
  rcases execute_cases i (bodyOf i) s with ⟨e, _, h2⟩ | ⟨out, p, h1, h2, h3⟩ | ⟨_, _, h3⟩
  · subst h; rw [h2] at he; simp [raiseError, setResult] at he
  · exact ⟨out, p, h1, h2, h.trans h3⟩
  · subst h; rw [h3] at he; simp [raiseError, setResult] at he

/-- A command keeps the canonical form of BUF. -/
theorem exec_wf {i : Instr} {s t : State} (hwf : s.buf.wf = true) (h : exec i s = .next t) : t.buf.wf = true := by
  rw [exec_next] at h
  subst h
  rcases execute_cases i (bodyOf i) s with ⟨e, _, h2⟩ | ⟨out, p, _, _, h3⟩ | ⟨_, _, h3⟩
  · rw [h2]; exact hwf
  · rw [h3]; exact Memory.wf_writeBytes hwf _ _
  · rw [h3]; exact hwf

/-- What consumes the IV (R200). -/
theorem needsIV_iff (i : Instr) (m : BitVec 2) :
    needsIV i m = true ↔ (i = .enc ∨ i = .dec ∨ i = .check) ∧ m = 1 := by
  cases i <;> simp [needsIV, modeCbc]

/-- What consumes the nonce (R200). -/
theorem needsNonce_iff (i : Instr) (m : BitVec 2) :
    needsNonce i m = true ↔ ((i = .enc ∨ i = .dec) ∧ m = 2) ∨ i = .ctrXcrypt := by
  cases i <;> simp [needsNonce, modeCtr]

/-- What uses the key (R200). -/
theorem needsKey_iff (i : Instr) :
    needsKey i = true ↔
      i = .blkEnc ∨ i = .blkDec ∨ i = .enc ∨ i = .dec ∨ i = .check ∨ i = .ctrXcrypt := by
  cases i <;> simp [needsKey]

/-- The first failing check of a legal command, as a chain of conditions in the order of R211. -/
theorem firstFailure_checks {i : Instr} {s : State} (hw : i.WellFormed) : firstFailure (checks i s) =
    if modeSupported i s.mode = true then
      if s.SrcFits then
        if usesAux i = true → s.AuxFits then
          if usesDst i = true → s.DstFits (maxOut i s.mode s.len.toNat) then
            if usesAux i = true → s.len = s.auxLen then
              if oneBlock i = true → s.len = 16 then
                if needsKey i = true → s.KeyLoaded then
                  if needsIV i s.mode = true → s.IvValid then
                    if needsNonce i s.mode = true → s.NonceValid then none
                    else some .missingIvOrNonce
                  else some .missingIvOrNonce
                else some .keyNotLoaded
              else some .lengthMismatch
            else some .lengthMismatch
          else some .addressRange
        else some .addressRange
      else some .addressRange
    else some .unsupportedModeOperation := by
  have imp : ∀ a b : Bool, (!a || b) = true ↔ (a = true → b = true) := by decide
  simp only [checks, firstFailure, hw, if_true, imp, inRange, keyLoaded, ivValid, nonceValid, decide_eq_true_eq,
    beq_iff_eq]

end Sys2Proof.Machine
end

