-- ==== Sys2Proof/Laws/PerInstr.lean ====
section
/-! SUPPORT. Facts about commands as syntax, one lemma per constructor. -/

namespace Sys2Proof.Laws

open Sys2Proof

/-- The word of a well-formed command is legal, in the words of R94. -/
def EncodesLegally.Statement (i : Instr) : Prop := i.WellFormed → legal (encode i) = true

theorem EncodesLegally.pad (bs : BitVec 8) : EncodesLegally.Statement (.pad bs) := by
  revert bs; unfold EncodesLegally.Statement; decide

theorem EncodesLegally.unpad (bs : BitVec 8) : EncodesLegally.Statement (.unpad bs) := by
  revert bs; unfold EncodesLegally.Statement; decide

theorem EncodesLegally.xor : EncodesLegally.Statement .xor := fun _ => by decide

theorem EncodesLegally.blkEnc : EncodesLegally.Statement .blkEnc := fun _ => by decide

theorem EncodesLegally.blkDec : EncodesLegally.Statement .blkDec := fun _ => by decide

theorem EncodesLegally.enc : EncodesLegally.Statement .enc := fun _ => by decide

theorem EncodesLegally.dec : EncodesLegally.Statement .dec := fun _ => by decide

theorem EncodesLegally.check : EncodesLegally.Statement .check := fun _ => by decide

theorem EncodesLegally.ctrXcrypt : EncodesLegally.Statement .ctrXcrypt := fun _ => by decide

end Sys2Proof.Laws
end

