-- ==== Sys2Proof/Laws/Step.lean ====
section
/-! SUPPORT. What a step can do, said once (00_scope.md R10; 20_memory.md R74), and which events are taken as what. -/

namespace Sys2Proof.Machine

open Sys2Proof

/-- A step that answers a next state: nothing pending; a legal command; an illegal word; or another event taken. -/
theorem step_cases {s t : State} (h : step s = .next t) :
    (s.pending = [] ∧ t = s) ∨
    ∃ ev rest, s.pending = ev :: rest ∧
      ((∃ v i, take s.params ev = .ok (.command v) ∧ decode v = .ok i ∧
          t = execute i (bodyOf i) { s with pending := rest }) ∨
       (∃ v e, take s.params ev = .ok (.command v) ∧ decode v = .error e ∧
          t = illegalCommand { s with pending := rest }) ∨
       (∃ a, take s.params ev = .ok a ∧ (∀ v, a ≠ .command v) ∧ t = perform a { s with pending := rest })) := by
  unfold step at h
  split at h
  · next hp => cases h; exact .inl ⟨hp, rfl⟩
  · next ev rest hp =>
    refine .inr ⟨ev, rest, hp, ?_⟩
    split at h
    · next a ha =>
      cases a with
      | command v =>
        simp only [act, runCommand] at h
        split at h
        · next i hi => exact .inl ⟨v, i, ha, hi, exec_next.1 h⟩
        · next e he => cases h; exact .inr (.inl ⟨v, e, ha, he, rfl⟩)
      | readReg r => cases h; exact .inr (.inr ⟨_, ha, by simp, rfl⟩)
      | writeReg r v => cases h; exact .inr (.inr ⟨_, ha, by simp, rfl⟩)
      | readBuf w a => cases h; exact .inr (.inr ⟨_, ha, by simp, rfl⟩)
      | writeBuf w a v => cases h; exact .inr (.inr ⟨_, ha, by simp, rfl⟩)
      | reset d => cases h; exact .inr (.inr ⟨_, ha, by simp, rfl⟩)
    · cases h

/-- The next event, taken as another action than a command. -/
theorem step_perform {s : State} {ev : HostEvent} {rest : List HostEvent} {a : Action}
    (hp : s.pending = ev :: rest) (ha : take s.params ev = .ok a) (hc : ∀ v, a ≠ .command v) :
    step s = .next (perform a { s with pending := rest }) := by
  unfold step
  rw [hp]
  simp only [ha]
  cases a with
  | command v => exact absurd rfl (hc v)
  | _ => rfl

/-- The next event, taken as a command. -/
theorem step_command {s : State} {ev : HostEvent} {rest : List HostEvent} {v : Word}
    (hp : s.pending = ev :: rest) (ha : take s.params ev = .ok (.command v)) :
    step s = runCommand v { s with pending := rest } := by
  unfold step
  rw [hp]
  simp only [ha, act]

/-- The next event, not taken. -/
theorem step_refused {s : State} {ev : HostEvent} {rest : List HostEvent} {r : Refusal}
    (hp : s.pending = ev :: rest) (ha : take s.params ev = .error r) : step s = .refused r := by
  unfold step
  rw [hp]
  simp only [ha]

/-- A BUF write that is taken lies inside BUF (R63). -/
theorem bufAccessTaken_bound {p : Params} {w a : Nat} (h : bufAccessTaken p w a = true) : a + w ≤ p.memBytes := by
  simp only [bufAccessTaken, Bool.and_eq_true, decide_eq_true_eq] at h
  exact h.2

theorem takeReg_cases {o : Nat} {acc : Access} {a : Action} (h : takeReg o acc = .ok a) :
    (∃ v, a = .command v) ∨ (∃ r, a = .readReg r) ∨ (∃ r v, a = .writeReg r v) := by
  unfold takeReg at h
  split at h
  · split at h
    · cases h; exact .inr (.inl ⟨_, rfl⟩)
    · cases h
      split
      · exact .inl ⟨_, rfl⟩
      · exact .inr (.inr ⟨_, _, rfl⟩)
    · cases h
  · cases h

theorem takeBuf_cases {p : Params} {b : Nat} {acc : Access} {a : Action} (h : takeBuf p b acc = .ok a) :
    (∃ w, a = .readBuf w b) ∨ (∃ w v, bufAccessTaken p w b = true ∧ a = .writeBuf w b v) := by
  unfold takeBuf at h
  split at h
  · split at h
    · cases h; exact .inl ⟨_, rfl⟩
    · cases h
  · split at h
    · next hb => cases h; exact .inr ⟨_, _, hb, rfl⟩
    · cases h

/-- Every event that is taken is a command, a register access, a BUF access inside BUF, or the reset it was. -/
theorem take_cases {p : Params} {ev : HostEvent} {a : Action} (h : take p ev = .ok a) :
    (∃ v, a = .command v) ∨ (∃ r, a = .readReg r) ∨ (∃ r v, a = .writeReg r v) ∨
    (∃ w b, a = .readBuf w b) ∨ (∃ w b v, bufAccessTaken p w b = true ∧ a = .writeBuf w b v) ∨
    (∃ d, ev = .reset d ∧ a = .reset d) := by
  have reg : ∀ {o acc}, takeReg o acc = .ok a → (∃ v, a = .command v) ∨ (∃ r, a = .readReg r) ∨
      (∃ r v, a = .writeReg r v) ∨ (∃ w b, a = .readBuf w b) ∨
      (∃ w b v, bufAccessTaken p w b = true ∧ a = .writeBuf w b v) ∨ (∃ d, ev = .reset d ∧ a = .reset d) := by
    intro o acc ho
    rcases takeReg_cases ho with h | h | h
    · exact .inl h
    · exact .inr (.inl h)
    · exact .inr (.inr (.inl h))
  have buf : ∀ {b acc}, takeBuf p b acc = .ok a → (∃ v, a = .command v) ∨ (∃ r, a = .readReg r) ∨
      (∃ r v, a = .writeReg r v) ∨ (∃ w b, a = .readBuf w b) ∨
      (∃ w b v, bufAccessTaken p w b = true ∧ a = .writeBuf w b v) ∨ (∃ d, ev = .reset d ∧ a = .reset d) := by
    intro b acc hb
    rcases takeBuf_cases hb with ⟨w, h⟩ | ⟨w, v, h, h'⟩
    · exact .inr (.inr (.inr (.inl ⟨w, b, h⟩)))
    · exact .inr (.inr (.inr (.inr (.inl ⟨w, b, v, h, h'⟩))))
  cases ev with
  | reg o acc => exact reg h
  | buf b acc => exact buf h
  | bus x acc =>
    simp only [take, takeBus] at h
    split at h
    · exact reg h
    · exact buf h
    · cases h
    · cases h
  | reset d => cases h; exact .inr (.inr (.inr (.inr (.inr ⟨d, rfl, rfl⟩))))

end Sys2Proof.Machine
end

