-- ==== Sys2Proof/Tests/Slice0.lean ====
section
/-! SUPPORT. The model's own tests: words from the tables of 30_encoding.md, one step each against the vectors of
95_test_vectors.md (no expected value comes from the model), and for each statement that has hypotheses a state and
operands that meet them. -/

namespace Sys2Proof.Tests

open Sys2Proof Sys2Proof.Machine

/-! ### Well-formedness and decoding -/

theorem test_wellFormed_pad_refuses_zero : Instr.wellFormed (.pad 0) = false := by decide

theorem test_wellFormed_unpad_refuses_zero : Instr.wellFormed (.unpad 0) = false := by decide

/-- R97, every row, and the row of V-PAD-6. -/
theorem test_decode_every_row :
    decode 0b00000000000000000001000000000001 = .ok (.pad 16) ∧
    decode 0b00000000000000001111111100000001 = .ok (.pad 255) ∧
    decode 0b00000000000000000001000000000010 = .ok (.unpad 16) ∧
    decode 0b00000000000000000000000000000011 = .ok .xor ∧
    decode 0b00000000000000000000000000000100 = .ok .blkEnc ∧
    decode 0b00000000000000000000000000000101 = .ok .blkDec ∧
    decode 0b00000000000000000000000000000110 = .ok .enc ∧
    decode 0b00000000000000000000000000000111 = .ok .dec ∧
    decode 0b00000000000000000000000000001000 = .ok .check ∧
    decode 0b00000000000000000000000000001001 = .ok .ctrXcrypt := by decide

/-- R92, R94: V-ERR-1, V-ERR-2, V-ERR-3, V-CBC-13, V-PAD-8, V-UNPAD-11, V-BLK-8. -/
theorem test_decode_illegal_words :
    decode 0x00000000 = .error .reservedOp ∧ decode 0x0000000a = .error .reservedOp ∧
    decode 0x00000013 = .error .reservedBits ∧ decode 0x00010008 = .error .reservedBits ∧
    decode 0x00000001 = .error .zeroBlockSize ∧ decode 0x00000002 = .error .zeroBlockSize ∧
    decode 0x00001004 = .error .blockSizeOnOther := by decide

theorem test_decodeTableWord :
    decodeTableWord 32 0x1001 = some (.pad 16) ∧ decodeTableWord 32 9 = some .ctrXcrypt ∧
    decodeTableWord 32 1 = none := by decide

/-! ### One step each, with TOY (95_test_vectors.md §0) -/

/-- The L2 parameters of 95_test_vectors.md §0. -/
def toyParams : Params := { primitive := .toy, keyBytes := 16, memBytes := 256, regBase := 0, bufBase := 0x1000 }

/-- "ICE ICE BABY". -/
def p0 : List Byte := [0x49, 0x43, 0x45, 0x20, 0x49, 0x43, 0x45, 0x20, 0x42, 0x41, 0x42, 0x59]

/-- The outputs of V-ECB-1, V-CBC-1 and V-CTR-1. -/
def ecb1 : List Byte :=
  [0x43, 0x44, 0x22, 0x4a, 0x47, 0x40, 0x26, 0x45, 0x49, 0x4b, 0x53, 0x0f, 0x08, 0x09, 0x0a, 0x46]

def cbc1 : List Byte :=
  [0x52, 0x56, 0x31, 0x5e, 0x52, 0x56, 0x31, 0x5d, 0x50, 0x51, 0x48, 0x13, 0x15, 0x17, 0x15, 0x56]

def ctr1 : List Byte := [0x49, 0x42, 0x47, 0x23, 0x4d, 0x46, 0x43, 0x27, 0x4a, 0x48, 0x48, 0x52]

/-- `00 01 ... 0f`. -/
def count16 : List Byte := (List.range 16).map (BitVec.ofNat 8)

/-- The start of an L2 vector without a key: the input at SRC = 0, DST = 0x80, AUX = 0x10. -/
def plain (input : List Byte) : State :=
  { State.reset with
    params := toyParams, len := BitVec.ofNat 32 input.length, dst := 0x80
    aux := 0x10, auxLen := BitVec.ofNat 32 input.length, buf := Memory.writeBytes [] 0 input }

/-- The start of an L2 vector with the key K, a mode, and the IV or the nonce that the mode uses. -/
def keyed (mode : BitVec 2) (input : List Byte) : State :=
  { plain input with
    mode := mode
    key := #v[0x03020100, 0x07060504, 0x0b0a0908, 0x0f0e0d0c, 0, 0, 0, 0, 0, 0, 0, 0, 0, 0, 0, 0]
    keyMask := 0b1111
    iv := #v[0x13121110, 0x17161514, 0x1b1a1918, 0x1f1e1d1c]
    ivMask := if mode = 1 then 0b1111 else 0
    nonceMask := if mode = 2 then 0b11 else 0 }

/-- STATUS, OUT_LEN and the output after a command word written to CMD. -/
def after (s : State) (w : Nat) : Option (Word × Nat × List Byte) :=
  match step (s.withFetchWord 32 w) with
  | .next t => some (statusWord t, t.outLen.toNat, t.buf.readBytes t.dst.toNat t.outLen.toNat)
  | .fault _ => none
  | .refused _ => none

/-- V-PAD-1. -/
theorem test_pad : after (plain p0) 0x1001 = some (0, 16, p0 ++ [4, 4, 4, 4]) := by decide

/-- V-PAD-8: BS = 0. -/
theorem test_pad_zero_block_size : after (plain p0) 0x0001 = some (0x51, 0, []) := by decide

/-- W1. -/
theorem test_unpad : after (plain (p0 ++ [4, 4, 4, 4])) 0x1002 = some (0x100, 12, p0) := by decide

/-- W2. -/
theorem test_unpad_rejects : after (plain (p0 ++ [5, 5, 5, 5])) 0x1002 = some (0x21, 0, []) := by decide

/-- V-XOR-1. -/
theorem test_xor :
    after { plain [1, 2, 3] with buf := Memory.writeBytes (Memory.writeBytes [] 0 [1, 2, 3]) 0x10 [3, 2, 1] } 3 =
      some (0, 3, [2, 0, 2]) := by decide

/-- V-XOR-5: ADDRESS_RANGE before LENGTH_MISMATCH. -/
theorem test_xor_range_first : after { plain [1, 2, 3] with aux := 0xfe, auxLen := 4 } 3 = some (0x71, 0, []) := by
  decide

/-- V-BLK-1. -/
theorem test_blkEnc : after (keyed 0 count16) 4 =
    some (0x10000, 16, [1, 3, 1, 7, 1, 3, 1, 15, 1, 3, 1, 7, 1, 3, 1, 15]) := by decide

/-- V-BLK-6: LENGTH_MISMATCH before KEY_NOT_LOADED. -/
theorem test_blkEnc_length_first : after { plain count16 with len := 15 } 4 = some (0x11, 0, []) := by decide

/-- V-BLK-2. -/
theorem test_blkDec : after (keyed 0 [1, 3, 1, 7, 1, 3, 1, 15, 1, 3, 1, 7, 1, 3, 1, 15]) 5 =
    some (0x10000, 16, count16) := by decide

/-- V-ECB-1. -/
theorem test_enc_ecb : after (keyed 0 p0) 6 = some (0x10000, 16, ecb1) := by decide

/-- V-CBC-1: the IV is consumed, so IV_VALID reads 0. -/
theorem test_enc_cbc : after (keyed 1 p0) 6 = some (0x10000, 16, cbc1) := by decide

/-- V-ECB-4. -/
theorem test_dec_ecb : after (keyed 0 ecb1) 7 = some (0x10100, 12, p0) := by decide

/-- V-CBC-4. -/
theorem test_dec_cbc : after (keyed 1 cbc1) 7 = some (0x10100, 12, p0) := by decide

/-- V-CBC-7. -/
theorem test_check_accepts : after (keyed 1 cbc1) 8 = some (0x10100, 0, []) := by decide

/-- V-CBC-8: another IV, so a padding that does not validate; no error. -/
theorem test_check_rejects :
    after { keyed 1 cbc1 with iv := #v[0x13121110, 0x17161514, 0x1b1a1918, 0x1e1e1d1c] } 8 =
      some (0x10000, 0, []) := by decide

/-- V-CTR-3: the nonce 0x0123456789abcdef. -/
theorem test_ctrXcrypt :
    after { keyed 2 p0 with nonceLo := 0x89abcdef, nonceHi := 0x01234567 } 9 =
      some (0x10000, 12, [0x84, 0xe9, 0xce, 0x44, 0x08, 0x65, 0x42, 0x27, 0x4a, 0x48, 0x48, 0x52]) := by decide

/-- V-CTR-8: CTR.XCRYPT in ECB mode keeps the nonce. -/
theorem test_ctrXcrypt_needs_mode : after { keyed 0 p0 with nonceMask := 0b11 } 9 = some (0x50041, 0, []) := by
  decide

/-- The step after reset runs what is placed (P5: MODE 0, LEN 0, no key: KEY_NOT_LOADED). -/
theorem test_reset_runs_placed_word :
    (match step (State.reset.withFetchWord 32 6) with | .next t => some (statusWord t) | _ => none) = some 0x61 := by
  decide

/-- P4, statements 3 to 5, from the assembly to the accesses. -/
theorem test_assemble_ctr_x : expand toyParams (.ctrX 0 12 0x20 0) = some
    [.reg 0x000 (.write 4 2), .reg 0x050 (.write 4 0), .reg 0x054 (.write 4 0), .reg 0x010 (.write 4 0),
     .reg 0x014 (.write 4 12), .reg 0x018 (.write 4 0x20), .reg 0x008 (.write 4 9)] := by decide

/-! ### The hypotheses of the statements can be met

One theorem a statement: a state and operands that meet its hypotheses, at a boundary where a clause has one. -/

/-- `s` with one event pending. -/
def facing (s : State) (ev : HostEvent) : State := { s with pending := [ev] }

theorem not_decoded : ∀ i, decode 0 ≠ .ok i := by
  have e : decode 0 = .error .reservedOp := by decide
  intro i h
  rw [e] at h
  cases h

theorem witness_WordIsLegalExactlyAsR94Says :
    ∃ s rest v, State.pending s = .reg 0x008 (.write 4 v) :: rest ∧ ∀ i, decode v ≠ .ok i :=
  ⟨facing State.reset (.reg 0x008 (.write 4 0)), [], 0, rfl, not_decoded⟩

theorem witness_DecodeOfEncodeIsTheCommand : Instr.WellFormed (.pad 255) ∧ Instr.WellFormed (.unpad 1) := by decide

theorem witness_EachCommandHasExactlyOneWord :
    legal 0x0000000a = false ∧ legal 0x00001001 = true ∧ decode 0x00001001 = .ok (.pad 16) ∧
    Instr.WellFormed (.pad 16) := by decide

theorem witness_LegalWordsAreTheListOfR97 : (1 : BitVec 8) ≠ 0 ∧ (255 : BitVec 8) ≠ 0 := by decide

theorem witness_StepRunsTheCommandWrittenToCmd :
    (∃ s rest v i, State.pending s = .reg 0x008 (.write 4 v) :: rest ∧ decode v = .ok i) ∧
    (∃ s rest v e, State.pending s = .reg 0x008 (.write 4 v) :: rest ∧ decode v = .error e) ∧
    (∃ s rest, State.pending s = .reg 0x008 (.read 4) :: rest) :=
  ⟨⟨facing State.reset (.reg 0x008 (.write 4 3)), [], 3, .xor, rfl, by decide⟩,
   ⟨facing State.reset (.reg 0x008 (.write 4 0x0001)), [], 1, .zeroBlockSize, rfl, by decide⟩,
   ⟨facing State.reset (.reg 0x008 (.read 4)), [], rfl⟩⟩

theorem witness_PlacedWordRunsNextAndIdleStepChangesNothing :
    decodeTableWord 32 0x1001 = some (.pad 16) ∧ State.reset.pending = [] := by decide

/-- The last byte of each window, the byte past the register window, and a placement that overlaps. -/
theorem witness_BusAccessIsTheAccessInsideItsWindow :
    (∃ s rest h acc, State.pending s = .bus h acc :: rest ∧ s.params.regBase ≤ h ∧ h < s.params.regBase + 0x100 ∧
      ¬ (s.params.bufBase ≤ h ∧ h < s.params.bufBase + s.params.memBytes)) ∧
    (∃ s rest h acc, State.pending s = .bus h acc :: rest ∧
      ¬ (s.params.regBase ≤ h ∧ h < s.params.regBase + 0x100) ∧
      s.params.bufBase ≤ h ∧ h < s.params.bufBase + s.params.memBytes) ∧
    (∃ s rest h acc, State.pending s = .bus h acc :: rest ∧
      ¬ (s.params.regBase ≤ h ∧ h < s.params.regBase + 0x100) ∧
      ¬ (s.params.bufBase ≤ h ∧ h < s.params.bufBase + s.params.memBytes)) ∧
    (∃ s rest h acc, State.pending s = .bus h acc :: rest ∧ s.params.regBase ≤ h ∧ h < s.params.regBase + 0x100 ∧
      s.params.bufBase ≤ h ∧ h < s.params.bufBase + s.params.memBytes) :=
  ⟨⟨facing State.reset (.bus 0xfc (.read 4)), [], 0xfc, .read 4, rfl, by decide⟩,
   ⟨facing State.reset (.bus 0x1fff (.read 1)), [], 0x1fff, .read 1, rfl, by decide⟩,
   ⟨facing State.reset (.bus 0x100 (.read 4)), [], 0x100, .read 4, rfl, by decide⟩,
   ⟨facing { State.reset with params := { Config.params with bufBase := 0x80 } } (.bus 0x80 (.read 4)), [], 0x80,
     .read 4, rfl, by decide⟩⟩

theorem witness_StepKeepsInvariant :
    (facing State.reset (.buf 4095 (.write 1 7))).Inv ∧
    ∃ t, step (facing State.reset (.buf 4095 (.write 1 7))) = .next t := ⟨by decide, _, rfl⟩

theorem witness_OnlyResetClearsKeyLockAndKeyMask :
    (∃ s t, State.NextIsNoReset s ∧ step s = .next t ∧ s.keyLock = true ∧ s.keyMask.getLsbD 0 = true) ∧
    (∃ s d rest, State.pending s = .reset d :: rest) :=
  ⟨⟨facing { keyed 0 p0 with keyLock := true } (.reg 0 (.write 4 0)), _, by intro d rest h; simp [facing] at h, rfl,
      rfl, by decide⟩,
   ⟨facing State.reset (.reset ⟨.replicate 4 0, 0, 0, .replicate 16 0, []⟩), _, [], rfl⟩⟩

/-- Two states that differ in every word that is not written: IV, NONCE and the inert key words. -/
theorem witness_UnwrittenSecretWordsAreUnobservable :
    ∃ s t : State, s.EqualButUnwritten t ∧ s ≠ t ∧ (∃ s', step s = .next s') ∧
      ∃ s t r, State.EqualButUnwritten s t ∧ s ≠ t ∧ step s = .refused r :=
  ⟨facing State.reset (.reg 0 (.read 4)), facing { State.reset with nonceLo := 1 } (.reg 0 (.read 4)),
   ⟨rfl, fun _ _ => rfl, fun h => absurd h (by decide), fun _ => rfl, fun _ _ => rfl⟩, by decide, ⟨_, rfl⟩,
   facing State.reset (.buf 1 (.read 4)), facing { State.reset with nonceLo := 1 } (.buf 1 (.read 4)),
   .bufferAccessNotTaken,
   ⟨rfl, fun _ _ => rfl, fun h => absurd h (by decide), fun _ => rfl, fun _ _ => rfl⟩, by decide, rfl⟩

theorem witness_SecretsReachNothingWithoutTheCipher :
    ∃ s t : State, s.EqualButSecrets t ∧ s ≠ t ∧
      (∀ ev rest v i, s.pending = ev :: rest → take s.params ev = .ok (.command v) → decode v = .ok i →
        needsKey i = false) ∧ ∃ s', step s = .next s' :=
  ⟨facing (keyed 0 p0) (.reg 0x008 (.write 4 0x1001)),
   facing { keyed 0 p0 with nonceLo := 1 } (.reg 0x008 (.write 4 0x1001)), rfl, by decide, by
    intro ev rest v i h1 h2 h3
    cases h1
    have : (Except.ok (Action.command 0x1001) : Except Refusal Action) = .ok (.command v) := h2
    cases this
    have e : decode 0x1001 = .ok (.pad 16) := by decide
    rw [e] at h3
    cases h3
    rfl, ⟨_, rfl⟩⟩

theorem witness_RegisterReadsFollowTheMap :
    (facing State.reset (.reg 0x0fc (.read 4))).pending = .reg 0x0fc (.read 4) :: [] ∧ 0x0fc % 4 = 0 ∧
    0x0fc < 0x100 := by decide

theorem witness_CtrlWritesModeAndSetsKeyLock :
    (facing State.reset (.reg 0x000 (.write 4 0x103))).pending = .reg 0x000 (.write 4 0x103) :: [] ∧
    (facing State.reset (.reg 0x000 (.read 4))).pending = .reg 0x000 (.read 4) :: [] := by decide

theorem witness_OperandRegistersHoldWhatTheHostWrites :
    (∃ s v, State.pending s = .reg 0x010 (.write 4 v) :: []) ∧ (∃ s v, State.pending s = .reg 0x014 (.write 4 v) :: []) ∧
    (∃ s v, State.pending s = .reg 0x018 (.write 4 v) :: []) ∧ (∃ s v, State.pending s = .reg 0x01C (.write 4 v) :: []) ∧
    (∃ s v, State.pending s = .reg 0x020 (.write 4 v) :: []) ∧
    (∀ o ∈ [0x010, 0x014, 0x018, 0x01C, 0x020],
      (facing State.reset (.reg o (.read 4))).pending = .reg o (.read 4) :: []) ∧
    ∃ t, exec .xor (plain p0) = .next t :=
  ⟨⟨facing State.reset (.reg 0x010 (.write 4 0xffffffff)), _, rfl⟩,
   ⟨facing State.reset (.reg 0x014 (.write 4 0xffffffff)), _, rfl⟩,
   ⟨facing State.reset (.reg 0x018 (.write 4 0xffffffff)), _, rfl⟩,
   ⟨facing State.reset (.reg 0x01C (.write 4 0xffffffff)), _, rfl⟩,
   ⟨facing State.reset (.reg 0x020 (.write 4 0xffffffff)), _, rfl⟩, by decide, _, rfl⟩

theorem witness_IvAndNonceWritesSetTheirMaskBits :
    (facing State.reset (.reg 0x040 (.write 4 1))).pending = .reg (0x040 + 4 * (0 : Fin 4).val) (.write 4 1) :: [] ∧
    (facing State.reset (.reg 0x04c (.write 4 1))).pending = .reg (0x040 + 4 * (3 : Fin 4).val) (.write 4 1) :: [] ∧
    (facing State.reset (.reg 0x050 (.write 4 1))).pending = .reg 0x050 (.write 4 1) :: [] ∧
    (facing State.reset (.reg 0x054 (.write 4 1))).pending = .reg 0x054 (.write 4 1) :: [] := by decide

/-- KEY3 unlocked and locked, and KEY4, the first at or above KEY_WORDS = 4. -/
theorem witness_KeyWritesAreStoredUnlessLocked :
    (∃ (s : State) (k : Fin 16), s.pending = .reg (0x080 + 4 * k.val) (.write 4 1) :: [] ∧ s.keyLock = false ∧
      k.val < s.params.keyWords) ∧
    (∃ (s : State) (k : Fin 16), s.pending = .reg (0x080 + 4 * k.val) (.write 4 1) :: [] ∧ s.keyLock = true) ∧
    (∃ (s : State) (k : Fin 16), s.pending = .reg (0x080 + 4 * k.val) (.write 4 1) :: [] ∧
      s.params.keyWords ≤ k.val) :=
  ⟨⟨facing State.reset (.reg 0x08c (.write 4 1)), 3, by decide⟩,
   ⟨facing { State.reset with keyLock := true } (.reg 0x08c (.write 4 1)), 3, by decide⟩,
   ⟨facing State.reset (.reg 0x090 (.write 4 1)), 4, by decide⟩⟩

theorem witness_ReadOnlyWritesAreIgnoredAndReadsHaveNoEffect :
    (∀ o ∈ [0x004, 0x00C, 0x024, 0x028], (o = 0x004 ∨ o = 0x00C ∨ o = 0x024 ∨ o = 0x028) ∧
      (facing State.reset (.reg o (.write 4 1))).pending = .reg o (.write 4 1) :: []) ∧
    (facing State.reset (.reg 0x0fc (.read 4))).pending = .reg 0x0fc (.read 4) :: [] := by decide

theorem witness_ReservedOffsetsReadZeroAndIgnoreWrites :
    ∀ o ∈ [0x02C, 0x03C, 0x058, 0x07C, 0x0C0, 0x0FC, 0x090, 0x0BC], o % 4 = 0 ∧
      ((0x02C ≤ o ∧ o ≤ 0x03C) ∨ (0x058 ≤ o ∧ o ≤ 0x07C) ∨ (0x0C0 ≤ o ∧ o ≤ 0x0FC) ∨
        (0x080 + 4 * State.reset.params.keyWords ≤ o ∧ o ≤ 0x0BC)) ∧
      (facing State.reset (.reg o (.read 4))).pending = .reg o (.read 4) :: [] ∧
      (facing State.reset (.reg o (.write 4 1))).pending = .reg o (.write 4 1) :: [] := by decide

theorem witness_IvBytesAreTheWordsLittleEndian : count16.length = 16 := by decide

theorem witness_KeyBytesAreTheWordsLittleEndian :
    State.reset.params.Legal ∧ 3 < State.reset.params.keyWords ∧ count16.length = State.reset.params.keyBytes ∧
    State.reset.keyLock = false ∧ State.reset.KeyMaskInv := by decide

theorem witness_ResetSetsEveryPieceOfState :
    ∃ (s : State) (rest : List HostEvent) (d : ResetDraw) (f : Nat → Byte), s.params.Legal ∧
      s.pending = .reset d :: rest ∧ d.buf = (List.range s.params.memBytes).map (fun a => (a, f a)) :=
  ⟨facing (keyed 1 p0) (.reset ⟨.replicate 4 1, 2, 3, .replicate 16 4, (List.range 256).map fun a => (a, 5)⟩), [], _,
   fun _ => 5, by decide, rfl, rfl⟩

/-- The last access of each width that BUF takes, and one of each cause that it does not. -/
theorem witness_HostBufAccessesAreLittleEndianOrRefused :
    State.reset.Inv ∧
    (∀ wa ∈ [(1, 4095), (2, 4094), (4, 4092)], (wa.1 = 1 ∨ wa.1 = 2 ∨ wa.1 = 4) ∧ wa.2 % wa.1 = 0 ∧
      wa.2 + wa.1 ≤ State.reset.params.memBytes) ∧
    (∀ wa ∈ [(3, 0), (4, 2), (1, 4096)], ¬ ((wa.1 = 1 ∨ wa.1 = 2 ∨ wa.1 = 4) ∧ wa.2 % wa.1 = 0 ∧
      wa.2 + wa.1 ≤ State.reset.params.memBytes)) ∧
    (facing State.reset (.buf 4092 (.write 4 1))).pending = .buf 4092 (.write 4 1) :: [] ∧
    (facing State.reset (.buf 4092 (.read 4))).pending = .buf 4092 (.read 4) :: [] := by decide

theorem witness_NarrowReadsSeeTheBytesOfWideWrites :
    State.reset.Inv ∧ 4092 % 4 = 0 ∧ 4092 + 4 ≤ State.reset.params.memBytes := by decide

theorem witness_RegisterAccessesAreWordsOrRefused :
    ((facing State.reset (.reg 0x0fc (.read 4))).pending = .reg 0x0fc (.read 4) :: [] ∧
      (facing State.reset (.reg 0x0fc (.write 4 0))).pending = .reg 0x0fc (.write 4 0) :: [] ∧ 0x0fc % 4 = 0) ∧
    ∀ wo ∈ [(1, 0), (4, 2), (4, 0x100)], (wo.1 ≠ 4 ∨ wo.2 % 4 ≠ 0 ∨ 0x100 ≤ wo.2) ∧
      (facing State.reset (.reg wo.2 (.read wo.1))).pending = .reg wo.2 (.read wo.1) :: [] ∧
      (facing State.reset (.reg wo.2 (.write wo.1 0))).pending = .reg wo.2 (.write wo.1 0) :: [] := by decide

theorem witness_CommandsKeepAllOtherRegisters : ∃ t, exec .enc (keyed 1 p0) = .next t := ⟨_, rfl⟩

/-- XOR on a BUF that differs outside both operands. -/
theorem witness_CommandsTouchOnlyTheirRanges :
    (plain [1, 2]).Inv ∧ (∃ t, exec .xor (plain [1, 2]) = .next t ∧ t.err = false) ∧
    ∃ b : Memory, b.wf = true ∧ b ≠ (plain [1, 2]).buf ∧
      (∀ a, (plain [1, 2]).src.toNat ≤ a → a < (plain [1, 2]).src.toNat + (plain [1, 2]).len.toNat →
        b.read a = (plain [1, 2]).buf.read a) ∧
      ∀ a, (plain [1, 2]).aux.toNat ≤ a → a < (plain [1, 2]).aux.toNat + (plain [1, 2]).auxLen.toNat →
        b.read a = (plain [1, 2]).buf.read a := by
  refine ⟨by decide, ⟨_, rfl, by decide⟩, [(0, 1), (1, 2), (200, 9)], by decide, by decide, ?_, ?_⟩
  · intro a h1 h2
    have h2 : a < 2 := h2
    have : a = 0 ∨ a = 1 := by omega
    rcases this with rfl | rfl <;> decide
  · intro a h1 h2
    have h1 : 16 ≤ a := h1
    have h2 : a < 18 := h2
    have : a = 16 ∨ a = 17 := by omega
    rcases this with rfl | rfl <;> decide

/-- One command and state for each clause, each failing at its bound: ENC in MODE 3, ENC of a source one byte too long,
BLK.ENC of 17 bytes, ENC with no key, ENC in CBC mode with one IV word missing, and ENC with every check passed. -/
theorem witness_FirstFailingCheckDecidesTheError :
    Instr.WellFormed .enc ∧ Instr.WellFormed .blkEnc ∧
    (keyed 3 p0).mode = 3 ∧
    ({ keyed 0 p0 with src := 245 }.mode = 0 ∧ ¬ { keyed 0 p0 with src := 245 }.SrcFits) ∧
    ({ keyed 0 count16 with len := 17 }.SrcFits ∧ { keyed 0 count16 with len := 17 }.DstFits 16 ∧
      { keyed 0 count16 with len := 17 }.len ≠ 16) ∧
    ((plain p0).mode = 0 ∧ (plain p0).SrcFits ∧ (plain p0).DstFits (12 + (16 - 12 % 16)) ∧ ¬ (plain p0).KeyLoaded) ∧
    ({ keyed 1 p0 with ivMask := 7 }.mode = 1 ∧ { keyed 1 p0 with ivMask := 7 }.SrcFits ∧
      { keyed 1 p0 with ivMask := 7 }.DstFits (12 + (16 - 12 % 16)) ∧ { keyed 1 p0 with ivMask := 7 }.KeyLoaded ∧
      ¬ { keyed 1 p0 with ivMask := 7 }.IvValid) ∧
    ((keyed 1 p0).mode = 1 ∧ (keyed 1 p0).SrcFits ∧ (keyed 1 p0).DstFits (12 + (16 - 12 % 16)) ∧
      (keyed 1 p0).KeyLoaded ∧ (keyed 1 p0).IvValid) := by decide

theorem witness_ErrorsArePrecise :
    (∃ t, exec .enc (keyed 3 p0) = .next t ∧ t.err = true ∧ t.errCode ≠ 2) ∧
    (∃ t, exec .dec (keyed 1 ecb1) = .next t ∧ t.err = true ∧ t.errCode = 2) ∧ ∀ i, decode 0 ≠ .ok i :=
  ⟨⟨_, rfl, by decide⟩, ⟨_, rfl, by decide⟩, not_decoded⟩

theorem witness_IvAndNonceAreSingleUse :
    (∃ t, exec .enc (keyed 1 p0) = .next t ∧ t.err = false) ∧
    (∃ t, exec .dec (keyed 1 ecb1) = .next t ∧ t.errCode = 2) ∧
    (∃ t, exec .ctrXcrypt (keyed 2 p0) = .next t ∧ t.err = false) ∧
    (∃ t, exec .ctrXcrypt (keyed 1 p0) = .next t ∧ t.err = true ∧ t.errCode ≠ 2) :=
  ⟨⟨_, rfl, by decide⟩, ⟨_, rfl, by decide⟩, ⟨_, rfl, by decide⟩, ⟨_, rfl, by decide⟩⟩

/-- V-PAD-10: output up to the last byte of BUF. -/
theorem witness_OutputNeverExceedsMaxOut :
    { plain [] with dst := 1 }.Inv ∧ ∃ t, exec (.pad 255) { plain [] with dst := 1 } = .next t ∧ t.err = false :=
  ⟨by decide, _, rfl, by decide⟩

theorem witness_XorWritesTheExclusiveOr :
    (plain p0).Inv ∧ (plain p0).SrcFits ∧ (plain p0).AuxFits ∧ (plain p0).DstFits (plain p0).len.toNat ∧
    (plain p0).len = (plain p0).auxLen := by decide

theorem witness_BlkEncWritesTheEncryptedBlock :
    { keyed 0 count16 with dst := 240 }.Inv ∧ (keyed 0 count16).SrcFits ∧ { keyed 0 count16 with dst := 240 }.DstFits 16 ∧
    (keyed 0 count16).len = 16 ∧ (keyed 0 count16).KeyLoaded := by decide

theorem witness_BlkDecWritesTheDecryptedBlock :
    (keyed 0 count16).Inv ∧ (keyed 0 count16).SrcFits ∧ (keyed 0 count16).DstFits 16 ∧
    (keyed 0 count16).len = 16 ∧ (keyed 0 count16).KeyLoaded := by decide

theorem witness_XorLaws :
    p0.length = ctr1.length ∧ ∃ t, exec .xor (plain p0) = .next t ∧ t.err = false := ⟨by decide, _, rfl, by decide⟩

theorem witness_BlockCommandsUndoEachOther :
    (keyed 0 count16).Inv ∧ (keyed 0 count16).SrcFits ∧ (keyed 0 count16).DstFits 16 ∧ (keyed 0 count16).len = 16 ∧
    (keyed 0 count16).KeyLoaded ∧ (240 : Word).toNat + 16 ≤ (keyed 0 count16).params.memBytes := by decide

theorem witness_PadAppendsTheirOwnCount :
    1 ≤ 1 ∧ 1 ≤ 255 ∧ 255 ≤ 255 ∧ 0 < p0.length ∧ p0.length ≤ 12 ∧ 12 < (pad p0 16).length := by decide

theorem witness_UnpadAcceptsExactlyAWholeRun :
    (0 < count16.length ∧ unpad (p0 ++ [4, 4, 4, 4]) 16 ≠ none) ∧ unpad (p0 ++ [5, 5, 5, 5]) 16 = none := by decide

/-- V-PAD-10: 255 bytes that just fit. -/
theorem witness_PadCommandWritesThePaddedInput :
    { plain [] with dst := 1 }.Inv ∧ (255 : BitVec 8) ≠ 0 ∧ { plain [] with dst := 1 }.SrcFits ∧
    { plain [] with dst := 1 }.DstFits (0 + (255 - 0 % 255)) := by decide

theorem witness_UnpadCommandStripsOrRejects :
    (plain (p0 ++ [4, 4, 4, 4])).Inv ∧ (16 : BitVec 8) ≠ 0 ∧ (plain (p0 ++ [4, 4, 4, 4])).SrcFits ∧
    (plain (p0 ++ [4, 4, 4, 4])).DstFits 16 ∧
    (∀ x ∈ ((plain (p0 ++ [4, 4, 4, 4])).buf.readBytes 0 16).drop 12, x.toNat = 4) ∧
    ¬ ∀ x ∈ ((plain (p0 ++ [5, 5, 5, 5])).buf.readBytes 0 16).drop 11, x.toNat = 5 := by decide

theorem witness_UnpadUndoesPad :
    (plain p0).Inv ∧ (16 : BitVec 8) ≠ 0 ∧ ∃ t, exec (.pad 16) (plain p0) = .next t ∧ t.err = false ∧
      (240 : Word).toNat + t.outLen.toNat ≤ (plain p0).params.memBytes :=
  ⟨by decide, by decide, _, rfl, by decide, by decide⟩

/-- A padded length of exactly one block, an empty and a ragged ciphertext, and one of a whole block. -/
theorem witness_EcbWorksBlockByBlock :
    16 * 0 + 16 ≤ (pad p0 16).length ∧ ([] : List Byte).length = 0 ∧ p0.length % 16 ≠ 0 ∧
    ecb1.length ≠ 0 ∧ ecb1.length % 16 = 0 := by decide

theorem witness_EqualBlocksEncryptEquallyInEcb :
    16 * 0 + 16 ≤ count16.length ∧ 16 * 1 + 16 ≤ (count16 ++ count16).length := by decide

theorem witness_CbcEncryptionChainsBlocks :
    16 * 0 + 16 ≤ (pad count16 16).length ∧ 16 * 1 + 16 ≤ (pad count16 16).length := by decide

theorem witness_CbcDecryptionUnchainsBlocks :
    ([] : List Byte).length = 0 ∧ p0.length % 16 ≠ 0 ∧ (cbc1 ++ cbc1).length ≠ 0 ∧
    (cbc1 ++ cbc1).length % 16 = 0 ∧ 16 * 1 + 16 ≤ (cbc1 ++ cbc1).length := by decide

theorem witness_CtrXorsTheKeystream : 0 < p0.length ∧ 11 < p0.length := by decide

theorem witness_CbcEditFlipsTheNextBlock : 0 < 1 ∧ 1 < (blocks (cbc1 ++ cbc1)).length := by decide

theorem witness_CtrIsItsOwnInverse :
    (keyed 2 p0).mode = 2 ∧ (∃ t, exec .enc (keyed 2 p0) = .next t ∧ t.err = false) ∧
    (∃ t, exec .dec (keyed 2 p0) = .next t ∧ t.err = false) ∧
    (∃ t, exec .ctrXcrypt (keyed 2 p0) = .next t ∧ t.err = false) ∧ p0.length = ctr1.length :=
  ⟨rfl, ⟨_, rfl, by decide⟩, ⟨_, rfl, by decide⟩, ⟨_, rfl, by decide⟩, by decide⟩

theorem witness_EncInEcbWritesTheCiphertext :
    { keyed 0 p0 with dst := 240 }.Inv ∧ (keyed 0 p0).mode = 0 ∧ (keyed 0 p0).SrcFits ∧
    { keyed 0 p0 with dst := 240 }.DstFits (12 + 16 - 12 % 16) ∧ (keyed 0 p0).KeyLoaded := by decide

theorem witness_EncInCbcWritesTheCiphertext :
    (keyed 1 p0).Inv ∧ (keyed 1 p0).mode = 1 ∧ (keyed 1 p0).SrcFits ∧ (keyed 1 p0).DstFits (12 + 16 - 12 % 16) ∧
    (keyed 1 p0).KeyLoaded ∧ (keyed 1 p0).IvValid := by decide

theorem witness_CtrCommandsWriteTheTransform :
    (keyed 2 p0).Inv ∧ (keyed 2 p0).mode = 2 ∧ (keyed 2 p0).SrcFits ∧ (keyed 2 p0).DstFits (keyed 2 p0).len.toNat ∧
    (keyed 2 p0).KeyLoaded ∧ (keyed 2 p0).NonceValid := by decide

theorem witness_DecInEcbWritesThePlaintextOrRejects :
    (keyed 0 ecb1).Inv ∧ (keyed 0 ecb1).mode = 0 ∧ (keyed 0 ecb1).SrcFits ∧ (keyed 0 ecb1).DstFits 16 ∧
    (keyed 0 ecb1).KeyLoaded ∧
    ecbDecrypt toyParams (keyBytes (keyed 0 ecb1)) ((keyed 0 ecb1).buf.readBytes 0 16) = some p0 ∧
    ecbDecrypt toyParams (keyBytes (keyed 0 p0)) ((keyed 0 p0).buf.readBytes 0 12) = none := by decide

theorem witness_DecInCbcWritesThePlaintextOrRejects :
    (keyed 1 cbc1).Inv ∧ (keyed 1 cbc1).mode = 1 ∧ (keyed 1 cbc1).SrcFits ∧ (keyed 1 cbc1).DstFits 16 ∧
    (keyed 1 cbc1).KeyLoaded ∧ (keyed 1 cbc1).IvValid ∧
    cbcDecrypt toyParams (keyBytes (keyed 1 cbc1)) (blockOfBytes (ivBytes (keyed 1 cbc1)))
      ((keyed 1 cbc1).buf.readBytes 0 16) = some p0 ∧
    cbcDecrypt toyParams (keyBytes (keyed 1 p0)) (blockOfBytes (ivBytes (keyed 1 p0)))
      ((keyed 1 p0).buf.readBytes 0 12) = none := by decide

theorem witness_CheckReportsTheVerdict :
    ((keyed 0 ecb1).SrcFits ∧ (keyed 0 ecb1).KeyLoaded ∧ (keyed 0 ecb1).mode = 0) ∧
    ((keyed 1 cbc1).SrcFits ∧ (keyed 1 cbc1).KeyLoaded ∧ (keyed 1 cbc1).mode = 1 ∧ (keyed 1 cbc1).IvValid) := by
  decide

theorem witness_DecUndoesEncInEveryMode :
    ∀ m ∈ [(0 : BitVec 2), 1, 2], (keyed m p0).Inv ∧ (keyed m p0).mode ≠ 3 ∧
      (execute .enc encBody (keyed m p0)).err = false ∧
      (240 : Word).toNat + (execute .enc encBody (keyed m p0)).outLen.toNat ≤ (keyed m p0).params.memBytes := by
  decide

theorem witness_CheckOfOneBlockIsThePaddingOracle :
    (keyed 1 cbc1).mode = 1 ∧ (keyed 1 cbc1).SrcFits ∧ (keyed 1 cbc1).len = 16 ∧ (keyed 1 cbc1).KeyLoaded ∧
    (keyed 1 cbc1).IvValid := by decide

theorem witness_AssemblerExpandsCbcEncAndKeepsKeyLock :
    count16.length = 16 ∧ ∃ evs, expand toyParams (.mode .ecb) = some evs ∧ { State.reset with pending := evs }.pending = evs :=
  ⟨by decide, _, rfl, rfl⟩

end Sys2Proof.Tests
end

section
/-! PROOFS. Placed words and the platform's address map (00_scope.md R10, 20_memory.md R72). -/

namespace Sys2Proof.Machine

open Sys2Proof

/-- A table word decodes exactly as its low bits do as a command word (R91). -/
theorem decodeTableWord_eq_some {nbits w : Nat} {i : Instr} :
    decodeTableWord nbits w = some i ↔ decode (BitVec.ofNat 32 (w % 2 ^ nbits)) = .ok i := by
  unfold decodeTableWord
  cases decode (BitVec.ofNat 32 (w % 2 ^ nbits)) <;> simp

theorem runCommand_of_decode {v : Word} {i : Instr} (h : decode v = .ok i) (s : State) :
    runCommand v s = exec i s := by
  simp only [runCommand, h]

theorem step_of_pending_nil {s : State} (h : s.pending = []) : step s = .next s := by
  simp only [step, h]

/-- The very next step of a state with a word placed runs that word as a command (log 2). -/
theorem step_withFetchWord (s : State) (nbits w : Nat) :
    step (s.withFetchWord nbits w) = runCommand (BitVec.ofNat 32 (w % 2 ^ nbits)) s :=
  step_command rfl rfl

/-- Settles O7: a placed word is the command write that the next step performs, and an idle step is the identity. -/
theorem placedWordRunsNextAndIdleStepChangesNothing :
    Obligations.PlacedWordRunsNextAndIdleStepChangesNothing := by
  refine ⟨fun s w i hi => ?_, fun s => step_of_pending_nil⟩
  rw [step_withFetchWord, runCommand_of_decode (decodeTableWord_eq_some.1 hi)]

/-- Events that are taken alike step alike. -/
theorem step_congr_take {s : State} {ev ev' : HostEvent} {rest : List HostEvent} (hp : s.pending = ev :: rest)
    (h : take s.params ev = take s.params ev') : step s = step { s with pending := ev' :: rest } := by
  simp only [step, hp, h]

/-- The platform address `h` falls in the register window (R72). -/
abbrev InRegWindow (p : Params) (h : Nat) : Prop := p.regBase ≤ h ∧ h < p.regBase + 0x100

/-- The platform address `h` falls in the BUF window (R72). -/
abbrev InBufWindow (p : Params) (h : Nat) : Prop := p.bufBase ≤ h ∧ h < p.bufBase + p.memBytes

/-- The platform's address map, decided by the two windows (R72, log 9). -/
theorem takeBus_eq (p : Params) (h : Nat) (acc : Access) :
    takeBus p h acc =
      if InRegWindow p h then
        if InBufWindow p h then .error .busAddressAmbiguous else takeReg (h - p.regBase) acc
      else
        if InBufWindow p h then takeBuf p (h - p.bufBase) acc else .error .busAddressElsewhere := by
  have hreg : (p.regBase ≤ h && h < p.regBase + 0x100 : Bool) = decide (InRegWindow p h) := (Bool.decide_and ..).symm
  have hbuf : (p.bufBase ≤ h && h < p.bufBase + p.memBytes : Bool) = decide (InBufWindow p h) :=
    (Bool.decide_and ..).symm
  unfold takeBus
  rw [hreg, hbuf]
  split_ifs with hr hb hb
  · rw [decide_eq_true hr, decide_eq_true hb]
  · rw [decide_eq_true hr, decide_eq_false hb]
  · rw [decide_eq_false hr, decide_eq_true hb]
  · rw [decide_eq_false hr, decide_eq_false hb]

/-- Settles O8: in one window alone the access is taken as the one at the offset inside it; in both or in neither it is
not taken. -/
theorem busAccessIsTheAccessInsideItsWindow : Obligations.BusAccessIsTheAccessInsideItsWindow := by
  intro s rest h acc hp inReg inBuf
  have htake : take s.params (.bus h acc) = _ := takeBus_eq s.params h acc
  refine ⟨fun hr hb => step_congr_take hp ?_, fun hr hb => step_congr_take hp ?_,
    fun hr hb => step_refused hp ?_, fun hr hb => step_refused hp ?_⟩
  · rw [htake, if_pos hr, if_neg hb, take]
  · rw [htake, if_neg hr, if_pos hb, take]
  · rw [htake, if_neg hr, if_neg hb]
  · rw [htake, if_pos hr, if_pos hb]

end Sys2Proof.Machine
end

section
/-! PROOFS. The laws of XOR, and the block commands undoing each other (40_primitives.md R121 to R125). -/

namespace Sys2Proof.Machine

open Sys2Proof

/-- XOR with zeros is the identity (R124). -/
theorem xorBytes_zeros (a : List Byte) : xorBytes a (List.replicate a.length 0) = a := by
  apply List.ext_getElem
  · simp
  · intro i h1 h2
    simp [xorBytes_getElem]

/-- The state with the two operands of XOR exchanged (R124). -/
abbrev State.operandsExchanged (s : State) : State :=
  { s with src := s.aux, len := s.auxLen, aux := s.src, auxLen := s.len }

/-- Exchanging the operands of XOR keeps its checks passed: they ask the same of either (R200). -/
theorem checks_xor_operandsExchanged {s : State} (h : firstFailure (checks .xor s) = none) :
    firstFailure (checks .xor s.operandsExchanged) = none := by
  obtain ⟨hw, hm, hsrc, haux, hdst, hlen, -, -, -, -⟩ := checks_pass_iff.1 h
  have hl : s.auxLen = s.len := (hlen rfl).symm
  refine checks_pass_iff.2 ⟨hw, hm, haux rfl, fun _ => hsrc, fun _ => ?_, fun _ => hl, ?_, ?_, ?_, ?_⟩
  · simpa only [hl] using hdst rfl
  all_goals exact nofun

/-- The output of XOR does not depend on the order of its operands. -/
theorem xorBody_operandsExchanged (s : State) : xorBody s.operandsExchanged = xorBody s :=
  congrArg (BodyResult.complete · false) (xorBytes_comm _ _)

/-- Settles O38: the laws byte by byte, and both orders of the operands pass the same checks and run the same body. -/
theorem xorLaws : Obligations.XorLaws := by
  refine ⟨fun a b hl => ⟨xorBytes_cancel a b hl.le, xorBytes_zeros a, xorBytes_comm a b⟩, fun s t h he => ?_⟩
  obtain ⟨out, p, hc, hb, rfl⟩ := exec_succeeded h he
  exact ⟨_, exec_complete (checks_xor_operandsExchanged hc) ((xorBody_operandsExchanged s).trans hb), rfl, rfl, rfl⟩

/-- A block command in range with the key loaded passes its checks, in any mode (R122, R123, R200). -/
theorem checks_pass_of_oneBlock {i : Instr} {s : State} (hi : oneBlock i = true) (hsrc : s.SrcFits)
    (hdst : s.DstFits 16) (hlen : s.len = 16) (hkey : s.KeyLoaded) : firstFailure (checks i s) = none := by
  rw [checks_pass_iff]
  cases i with
  | blkEnc => exact ⟨rfl, rfl, hsrc, nofun, fun _ => hdst, nofun, fun _ => hlen, fun _ => hkey, nofun, nofun⟩
  | blkDec => exact ⟨rfl, rfl, hsrc, nofun, fun _ => hdst, nofun, fun _ => hlen, fun _ => hkey, nofun, nofun⟩
  | _ => cases hi

/-- The block at SRC that BLK.ENC and BLK.DEC work on (R122, R123). -/
def srcBlock (s : State) : Block := blockOfBytes (s.buf.readBytes s.src.toNat 16)

/-- The body of a command whose output is the block `f` makes of its input block under the key. -/
abbrev RunsOnBlock (i : Instr) (f : Params → List Byte → Block → Block) : Prop :=
  ∀ s, bodyOf i s = .complete (blockBytes (f s.params (keyBytes s) (srcBlock s))) false

theorem blkEnc_runsOnBlock : RunsOnBlock .blkEnc encBlock := fun _ => rfl

theorem blkDec_runsOnBlock : RunsOnBlock .blkDec decBlock := fun _ => rfl

/-- What a completion with one block writes is read back whole. -/
theorem readBytes_complete_block {s : State} (hwf : s.buf.wf = true) (x : Block) (p : Bool) :
    (complete (blockBytes x) p s).buf.readBytes s.dst.toNat 16 = blockBytes x := by
  simpa using (complete_writes hwf (blockBytes x) p).1

/-- A block command in range with the key loaded completes with its block at DST (R122, R123). -/
theorem exec_oneBlock {i : Instr} {f : Params → List Byte → Block → Block} (hi : oneBlock i = true)
    (hf : RunsOnBlock i f) {s : State} (hwf : s.buf.wf = true) (hsrc : s.SrcFits) (hdst : s.DstFits 16)
    (hlen : s.len = 16) (hkey : s.KeyLoaded) :
    ∃ t, exec i s = .next t ∧ t = complete (blockBytes (f s.params (keyBytes s) (srcBlock s))) false (consume i s) ∧
      t.buf.readBytes s.dst.toNat 16 = blockBytes (f s.params (keyBytes s) (srcBlock s)) :=
  ⟨_, exec_complete (checks_pass_of_oneBlock hi hsrc hdst hlen hkey) (hf s), rfl,
    readBytes_complete_block (s := consume i s) hwf _ false⟩

/-- Two block commands whose block functions undo each other undo each other in BUF, wherever the second one writes. -/
theorem oneBlock_roundTrip {i j : Instr} {f g : Params → List Byte → Block → Block} (hi : oneBlock i = true)
    (hj : oneBlock j = true) (hf : RunsOnBlock i f) (hg : RunsOnBlock j g) (hgf : ∀ p k x, g p k (f p k x) = x)
    {s : State} {d : Word} (hwf : s.buf.wf = true) (hsrc : s.SrcFits) (hdst : s.DstFits 16) (hlen : s.len = 16)
    (hkey : s.KeyLoaded) (hd : d.toNat + 16 ≤ s.params.memBytes) :
    ∃ t u, exec i s = .next t ∧ exec j { t with src := s.dst, dst := d } = .next u ∧ u.err = false ∧
      u.buf.readBytes d.toNat 16 = s.buf.readBytes s.src.toNat 16 := by
  obtain ⟨t, ht, hts, hx⟩ := exec_oneBlock hi hf hwf hsrc hdst hlen hkey
  have hmid : srcBlock { t with src := s.dst, dst := d } = f s.params (keyBytes s) (srcBlock s) := by
    rw [srcBlock, hx, blockOfBytes_blockBytes]
  have hwft := exec_wf hwf ht
  subst hts
  obtain ⟨u, hu, hus, hy⟩ := exec_oneBlock hj hg (s := { complete _ _ _ with src := s.dst, dst := d }) hwft
    (by simpa [State.SrcFits, hlen] using hdst) hd hlen hkey
  refine ⟨_, u, ht, hu, by rw [hus]; rfl, ?_⟩
  calc u.buf.readBytes d.toNat 16 = blockBytes (g s.params (keyBytes s) (srcBlock _)) := hy
    _ = blockBytes (srcBlock s) := by rw [hmid, hgf]
    _ = s.buf.readBytes s.src.toNat 16 := blockBytes_blockOfBytes _ (by simp)

/-- Settles O39: the two orders of E and D are the two laws of R9. -/
theorem blockCommandsUndoEachOther : Obligations.BlockCommandsUndoEachOther := by
  intro s d hinv hsrc hdst hlen hkey hd
  obtain ⟨-, ⟨hwf, -⟩, -⟩ := hinv
  exact ⟨oneBlock_roundTrip rfl rfl blkEnc_runsOnBlock blkDec_runsOnBlock decBlock_encBlock hwf hsrc hdst hlen hkey hd,
    oneBlock_roundTrip rfl rfl blkDec_runsOnBlock blkEnc_runsOnBlock encBlock_decBlock hwf hsrc hdst hlen hkey hd⟩

end Sys2Proof.Machine
end

section
/-! PROOFS. ECB block by block (42_mode_engine.md R161, R179). -/

namespace Sys2Proof.Machine

open Sys2Proof

theorem slice_append_left (a b : List Byte) (i j : Nat) (h : j ≤ a.length) : slice (a ++ b) i j = slice a i j := by
  rcases Nat.le_total i j with hij | hij
  · rw [slice, slice, List.drop_append_of_le_length (by omega), List.take_append_of_le_length (by simp; omega)]
  · simp [slice, Nat.sub_eq_zero_of_le hij]

/-- Padding leaves the whole blocks of its input as they are (R140). -/
theorem slice_pad (b : List Byte) (bs i j : Nat) (h : j ≤ b.length) : slice (pad b bs) i j = slice b i j :=
  slice_append_left _ _ _ _ h

/-- Block `j` of an ECB encryption (R161). -/
theorem slice_ecbEncrypt (p : Params) (k b : List Byte) (j : Nat) (h : 16 * j + 16 ≤ (pad b 16).length) :
    slice (ecbEncrypt p k b) (16 * j) (16 * j + 16) =
      blockBytes (encBlock p k (blockOfBytes (slice (pad b 16) (16 * j) (16 * j + 16)))) := by
  rw [ecbEncrypt, slice_joinBlocks _ _ (by simp; omega), List.getElem_map, blocks_getElem]

theorem blockOfBytes_inj {l l' : List Byte} (h : l.length = 16) (h' : l'.length = 16) :
    blockOfBytes l = blockOfBytes l' ↔ l = l' :=
  ⟨fun e => by rw [← blockBytes_blockOfBytes l h, e, blockBytes_blockOfBytes l' h'], congrArg _⟩

theorem blockBytes_encBlock_inj {p : Params} {k : List Byte} {x y : Block} :
    blockBytes (encBlock p k x) = blockBytes (encBlock p k y) ↔ x = y :=
  ⟨fun h => encBlock_injective (blockBytes_injective h), fun h => h ▸ rfl⟩

/-- Settles O46: each ciphertext block is E of its plaintext block, and E under one key is injective. -/
theorem equalBlocksEncryptEquallyInEcb : Obligations.EqualBlocksEncryptEquallyInEcb := by
  intro p k b b' j j' hj hj'
  have hpad : ∀ c : List Byte, c.length ≤ (pad c 16).length := fun c => by rw [pad_length]; omega
  rw [slice_ecbEncrypt _ _ _ _ (hj.trans (hpad b)), slice_ecbEncrypt _ _ _ _ (hj'.trans (hpad b')),
    blockBytes_encBlock_inj, slice_pad _ _ _ _ hj, slice_pad _ _ _ _ hj',
    blockOfBytes_inj (by rw [slice_length _ _ _ hj]; omega) (by rw [slice_length _ _ _ hj']; omega)]

end Sys2Proof.Machine
end

section
/-! PROOFS. Each decoding function undoes its encoding function: the padding codec and the three modes
(41_padding_codec.md R140, R141; 42_mode_engine.md R161 to R165, R178). -/

namespace Sys2Proof.Machine

open Sys2Proof

/-- Counted from the end, every byte that padding adds is the count of them (R140). -/
theorem pad_getD_from_end (b : List Byte) (bs i : Nat) (h : i < bs - b.length % bs) :
    (pad b bs).getD ((pad b bs).length - (i + 1)) 0 = BitVec.ofNat 8 (bs - b.length % bs) := by
  rw [pad_length, pad, List.getD_eq_getElem?_getD, List.getElem?_append_right (by omega), List.getElem?_replicate,
    if_pos (by omega), Option.getD_some]

/-- `Unpad` accepts what `Pad` made and gives the input back (R144). -/
theorem unpad_pad (b : List Byte) {bs : Nat} (h1 : 1 ≤ bs) (h2 : bs ≤ 255) : unpad (pad b bs) bs = some b := by
  have hmod := Nat.mod_lt b.length h1
  have hlen := pad_length b bs
  have hlast : ((pad b bs).getD ((pad b bs).length - 1) 0).toNat = bs - b.length % bs := by
    rw [pad_getD_from_end b bs 0 (by omega), BitVec.toNat_ofNat]
    omega
  have hrun : (List.range ((pad b bs).getD ((pad b bs).length - 1) 0).toNat).all
      (fun i => (pad b bs).getD ((pad b bs).length - (i + 1)) 0 ==
        (pad b bs).getD ((pad b bs).length - 1) 0) = true := by
    rw [hlast]
    simp only [List.all_eq_true, List.mem_range, beq_iff_eq]
    intro i hi
    rw [pad_getD_from_end b bs i hi, pad_getD_from_end b bs 0 (by omega)]
  rw [unpad_eq, if_pos ⟨pad_length_mod b bs h1, by omega, by omega, by omega, hrun⟩, hlast, hlen, Nat.add_sub_cancel,
    pad, List.take_left]

/-- CBC unchaining undoes chaining from the same first block (R163, R164). -/
theorem cbcUnchain_cbcChain (p : Params) (k : List Byte) (c : Block) (qs : List Block) :
    cbcUnchain p k c (cbcChain p k c qs) = qs := by
  induction qs generalizing c with
  | nil => rfl
  | cons q qs ih => simp only [cbcChain, cbcUnchain, decBlock_encBlock, xorBlock_cancel, ih]

theorem wholeBlocks_joinBlocks {xs : List Block} (h : xs ≠ []) : wholeBlocks (joinBlocks xs) = true := by
  have := List.length_pos_iff.2 h
  rw [wholeBlocks_iff, joinBlocks_length]
  omega

theorem blocks_pad_ne_nil (b : List Byte) : blocks (pad b 16) ≠ [] := by
  rw [← List.length_pos_iff, blocks_length, pad_length]
  omega

theorem joinBlocks_blocks_pad (b : List Byte) : joinBlocks (blocks (pad b 16)) = pad b 16 :=
  joinBlocks_blocks _ (pad_length_mod b 16 (by decide))

/-- ECB decryption undoes encryption (R161, R162). -/
theorem ecbDecrypt_ecbEncrypt (p : Params) (k b : List Byte) : ecbDecrypt p k (ecbEncrypt p k b) = some b := by
  have hmap : ((blocks (pad b 16)).map (encBlock p k)).map (decBlock p k) = blocks (pad b 16) := by
    simp [List.map_map, Function.comp_def]
  rw [ecbDecrypt, ecbEncrypt, if_pos (wholeBlocks_joinBlocks (by simpa using blocks_pad_ne_nil b)), blocks_joinBlocks,
    hmap, joinBlocks_blocks_pad, unpad_pad b (by decide) (by decide)]

/-- CBC decryption undoes encryption under the same IV (R163, R164). -/
theorem cbcDecrypt_cbcEncrypt (p : Params) (k : List Byte) (iv : Block) (b : List Byte) :
    cbcDecrypt p k iv (cbcEncrypt p k iv b) = some b := by
  have hne : cbcChain p k iv (blocks (pad b 16)) ≠ [] := by
    rw [← List.length_pos_iff, cbcChain_length, List.length_pos_iff]
    exact blocks_pad_ne_nil b
  rw [cbcDecrypt, cbcEncrypt, if_pos (wholeBlocks_joinBlocks hne), blocks_joinBlocks, cbcUnchain_cbcChain,
    joinBlocks_blocks_pad, unpad_pad b (by decide) (by decide)]

/-- The CTR transform is its own inverse under the same nonce (R165, R181). -/
theorem ctrTransform_ctrTransform (p : Params) (k : List Byte) (nonce : Nat) (b : List Byte) :
    ctrTransform p k nonce (ctrTransform p k nonce b) = b := by
  rw [ctrTransform, ctrTransform_length, ctrTransform, xorBytes_cancel]
  rw [List.length_take, keystream_length]
  omega

end Sys2Proof.Machine
end

section
/-! PROOFS. DEC of what ENC wrote (42_mode_engine.md R166 to R173, R178). -/

namespace Sys2Proof.Machine

open Sys2Proof

/-- The body of ENC in ECB (R167). -/
theorem encBody_ecb {s : State} (h : s.mode = 0) :
    encBody s = .complete (ecbEncrypt s.params (keyBytes s) (srcBytes s)) false := by
  simp [encBody, h]

/-- The body of ENC in CBC (R168). -/
theorem encBody_cbc {s : State} (h : s.mode = 1) :
    encBody s = .complete (cbcEncrypt s.params (keyBytes s) (ivBlock s) (srcBytes s)) false := by
  simp [encBody, h]

/-- The body of ENC in CTR (R169). -/
theorem encBody_ctr {s : State} (h : s.mode = 2) :
    encBody s = .complete (ctrTransform s.params (keyBytes s) (nonceVal s) (srcBytes s)) false := by
  simp [encBody, h, ctrBody]

/-- The body of DEC in ECB (R171). -/
theorem decBody_ecb {s : State} (h : s.mode = 0) :
    decBody s = acceptOrRaise (ecbDecrypt s.params (keyBytes s) (srcBytes s)) := by
  simp [decBody, blockDecrypt, h]

/-- The body of DEC in CBC (R172). -/
theorem decBody_cbc {s : State} (h : s.mode = 1) :
    decBody s = acceptOrRaise (cbcDecrypt s.params (keyBytes s) (ivBlock s) (srcBytes s)) := by
  simp [decBody, blockDecrypt, h]

/-- The body of DEC in CTR (R173). -/
theorem decBody_ctr {s : State} (h : s.mode = 2) :
    decBody s = .complete (ctrTransform s.params (keyBytes s) (nonceVal s) (srcBytes s)) false := by
  simp [decBody, h, ctrBody]

theorem mode_cases {m : BitVec 2} (h : m ≠ 3) : m = 0 ∨ m = 1 ∨ m = 2 := by
  revert m; decide

/-- Two states that a mode function cannot tell apart but by its input: mode, parameters, key, IV and nonce agree. -/
abbrev State.SameKeying (s v : State) : Prop :=
  v.mode = s.mode ∧ v.params = s.params ∧ keyBytes v = keyBytes s ∧ ivBlock v = ivBlock s ∧ nonceVal v = nonceVal s

/-- The body of DEC on what the body of ENC made returns the plaintext, with PAD_OK in ECB and CBC (R178). -/
theorem decBody_of_encBody {s v : State} {out : List Byte} {p : Bool} (hm : s.mode ≠ 3) (hk : s.SameKeying v)
    (hout : encBody s = .complete out p) (hsrc : srcBytes v = out) :
    decBody v = .complete (srcBytes s) (s.mode != 2) := by
  obtain ⟨hmode, hparams, hkey, hiv, hnonce⟩ := hk
  rcases mode_cases hm with h | h | h
  · rw [encBody_ecb h] at hout
    cases hout
    rw [decBody_ecb (hmode.trans h), hparams, hkey, hsrc, ecbDecrypt_ecbEncrypt, h]
    rfl
  · rw [encBody_cbc h] at hout
    cases hout
    rw [decBody_cbc (hmode.trans h), hparams, hkey, hiv, hsrc, cbcDecrypt_cbcEncrypt, h]
    rfl
  · rw [encBody_ctr h] at hout
    cases hout
    rw [decBody_ctr (hmode.trans h), hparams, hkey, hnonce, hsrc, ctrTransform_ctrTransform, h]
    rfl

/-- The state after an ENC that completed with `out`, with DEC pointed at that output and at `d`, and the IV and nonce
written again (R178). -/
abbrev State.readyForDec (s : State) (out : List Byte) (p : Bool) (d : Word) : State :=
  { complete out p (consume .enc s) with
    src := s.dst, len := BitVec.ofNat 32 out.length, dst := d, ivMask := s.ivMask, nonceMask := s.nonceMask }

/-- OUT_LEN holds the length of the output of a command that passed its checks: MaxOut fits in BUF (R204, R210). -/
theorem outLen_toNat_of_checks {i : Instr} {s : State} {out : List Byte} {p : Bool} (hmem : s.params.memBytes ≤ 2 ^ 31)
    (hdst : usesDst i = true) (hc : firstFailure (checks i s) = none) (hb : bodyOf i s = .complete out p) :
    (BitVec.ofNat 32 out.length).toNat = out.length := by
  obtain ⟨-, -, -, -, hfit, -⟩ := checks_pass_iff.1 hc
  have hle := bodyOf_length_le hb
  have hfit : s.dst.toNat + _ ≤ s.params.memBytes := hfit hdst
  rw [BitVec.toNat_ofNat]
  omega

/-- After an ENC that passed its checks, DEC of its output passes them as well (R200). -/
theorem checks_readyForDec {s : State} {out : List Byte} {p : Bool} {d : Word}
    (hc : firstFailure (checks .enc s) = none) (hb : encBody s = .complete out p)
    (hlen : (BitVec.ofNat 32 out.length).toNat = out.length) (hd : d.toNat + out.length ≤ s.params.memBytes) :
    firstFailure (checks .dec (s.readyForDec out p d)) = none := by
  obtain ⟨-, hmode, -, -, hdst, -, -, hkey, hiv, hnonce⟩ := checks_pass_iff.1 hc
  have hle := bodyOf_length_le (i := .enc) hb
  refine checks_pass_iff.2 ⟨rfl, hmode, ?_, nofun, fun _ => ?_, nofun, nofun, hkey, hiv, hnonce⟩
  · have hfit : s.dst.toNat + _ ≤ s.params.memBytes := hdst rfl
    show s.dst.toNat + (BitVec.ofNat 32 out.length).toNat ≤ s.params.memBytes
    omega
  · show d.toNat + (BitVec.ofNat 32 out.length).toNat ≤ s.params.memBytes
    omega

/-- The input of that DEC is what ENC wrote. -/
theorem srcBytes_readyForDec {s : State} {out : List Byte} (p : Bool) (d : Word) (hwf : s.buf.wf = true)
    (hlen : (BitVec.ofNat 32 out.length).toNat = out.length) :
    srcBytes (s.readyForDec out p d) = out :=
  calc srcBytes (s.readyForDec out p d)
      = (complete out p (consume .enc s)).buf.readBytes s.dst.toNat (BitVec.ofNat 32 out.length).toNat := rfl
    _ = out := by rw [hlen]; exact (complete_writes (s := consume .enc s) hwf out p).1

/-- Settles O58: DEC passes the checks ENC passed, reads what ENC wrote, and its mode function undoes ENC's. -/
theorem decUndoesEncInEveryMode : Obligations.DecUndoesEncInEveryMode := by
  intro s t d hinv hm h he hd
  obtain ⟨⟨-, -, -, -, -, hmem⟩, ⟨hwf, -⟩, -⟩ := hinv
  have hwft := exec_wf hwf h
  obtain ⟨out, p, hc, hb, rfl⟩ := exec_succeeded h he
  have hlen := outLen_toNat_of_checks hmem rfl hc hb
  have hchecks := checks_readyForDec (d := d) hc hb hlen (hlen ▸ hd)
  have hbody := decBody_of_encBody (v := s.readyForDec out p d) hm ⟨rfl, rfl, rfl, rfl, rfl⟩ hb
    (srcBytes_readyForDec p d hwf hlen)
  have hread := (complete_writes (s := consume .dec (s.readyForDec out p d)) hwft (srcBytes s) (s.mode != 2)).1
  rw [srcBytes_length] at hread
  exact ⟨_, exec_complete hchecks hbody, rfl, rfl, by simp, hread⟩

end Sys2Proof.Machine
end

section
/-! PROOFS. One step per Host access to a register, and the register map (10_state.md R22 to R40). -/

namespace Sys2Proof.Machine

open Sys2Proof

/-! ### Slots of the map -/

theorem regOfSlot_iv (k : Fin 4) : regOfSlot ((0x040 + 4 * k.val) / 4) = .iv k := by
  revert k; decide

theorem regOfSlot_key (k : Fin 16) : regOfSlot ((0x080 + 4 * k.val) / 4) = .key k := by
  revert k; decide

/-- The reserved slots below 0x100 (R40). -/
theorem regOfSlot_reserved {n : Nat} (h : (11 ≤ n ∧ n ≤ 15) ∨ (22 ≤ n ∧ n ≤ 31) ∨ (48 ≤ n ∧ n ≤ 63)) :
    regOfSlot n = .reserved := by
  have map : ∀ n < 64, (11 ≤ n ∧ n ≤ 15) ∨ (22 ≤ n ∧ n ≤ 31) ∨ (48 ≤ n ∧ n ≤ 63) → regOfSlot n = .reserved := by
    decide
  exact map n (by omega) h

/-! ### One step per access -/

/-- A register read delivers the value of the map and does nothing else (R29). -/
theorem step_readReg {s : State} {rest : List HostEvent} {o : Nat} (hp : s.pending = .reg o (.read 4) :: rest)
    (h4 : o % 4 = 0) (hlt : o < 0x100) :
    step s = .next (deliver (regRead (regOfSlot (o / 4)) { s with pending := rest }) { s with pending := rest }) := by
  refine step_perform (a := .readReg (regOfSlot (o / 4))) hp ?_ nofun
  rw [take, takeReg, if_pos ⟨h4, hlt⟩]

/-- A register write at another offset than CMD. -/
theorem step_writeReg {s : State} {rest : List HostEvent} {o : Nat} {v : Word}
    (hp : s.pending = .reg o (.write 4 v) :: rest) (h4 : o % 4 = 0) (hlt : o < 0x100) (hc : o ≠ cmdOffset) :
    step s = .next (regWrite (regOfSlot (o / 4)) v { s with pending := rest }) := by
  refine step_perform (a := .writeReg (regOfSlot (o / 4)) v) hp ?_ nofun
  rw [take, takeReg, if_pos ⟨h4, hlt⟩, if_neg hc]

/-- A write of CMD runs the command word (R30). -/
theorem step_writeCmd {s : State} {rest : List HostEvent} {v : Word}
    (hp : s.pending = .reg 0x008 (.write 4 v) :: rest) : step s = runCommand v { s with pending := rest } :=
  step_command hp rfl

theorem runCommand_of_illegal {v : Word} {e : Illegal} (h : decode v = .error e) (s : State) :
    runCommand v s = .next (s.errored 5) := by
  simp only [runCommand, h]
  rfl

/-- Settles O6: a CMD write runs its word in the one step, by the two cases of decoding. -/
theorem stepRunsTheCommandWrittenToCmd : Obligations.StepRunsTheCommandWrittenToCmd := by
  refine ⟨fun s rest v i hp hi => ?_, fun s rest v e hp he => ?_, fun s rest hp => step_readReg hp rfl (by decide)⟩
  · rw [step_writeCmd hp, runCommand_of_decode hi]
  · rw [step_writeCmd hp, runCommand_of_illegal he]

/-! ### What a read returns -/

/-- STATUS as a sum of its fields: they do not overlap (R27). -/
theorem statusWord_eq (s : State) : statusWord s =
    BitVec.ofNat 32 (s.err.toNat + s.errCode.toNat * 2 ^ 4 + s.padOk.toNat * 2 ^ 8 +
      (if s.KeyLoaded then 2 ^ 16 else 0) + (if s.IvValid then 2 ^ 17 else 0) +
      (if s.NonceValid then 2 ^ 18 else 0)) := by
  have fields : ∀ (e p k i n : Bool) (c : BitVec 4),
      flagAt 0 e ||| (c.setWidth 32 <<< 4) ||| flagAt 8 p ||| flagAt 16 k ||| flagAt 17 i ||| flagAt 18 n =
        BitVec.ofNat 32 (e.toNat + c.toNat * 2 ^ 4 + p.toNat * 2 ^ 8 + (if k then 2 ^ 16 else 0) +
          (if i then 2 ^ 17 else 0) + (if n then 2 ^ 18 else 0)) := by
    decide
  rw [statusWord, fields]
  simp only [keyLoaded, ivValid, nonceValid, beq_iff_eq]

/-- CTRL as a sum of its fields (R24). -/
theorem ctrlWord_eq (s : State) : ctrlWord s = BitVec.ofNat 32 (s.keyLock.toNat * 2 ^ 8 + s.mode.toNat) := by
  have fields : ∀ (l : Bool) (m : BitVec 2),
      flagAt 8 l ||| m.setWidth 32 = BitVec.ofNat 32 (l.toNat * 2 ^ 8 + m.toNat) := by decide
  exact fields _ _

/-- The value of the map at each offset: 0 but at the readable registers (R22, R39, R40). -/
theorem regRead_atOffset {o : Nat} (h4 : o % 4 = 0) (hlt : o < 0x100) (s : State) : regRead (regOfSlot (o / 4)) s =
    if o = 0x000 then ctrlWord s else if o = 0x004 then statusWord s else if o = 0x00C then s.outLen
    else if o = 0x010 then s.src else if o = 0x014 then s.len else if o = 0x018 then s.dst
    else if o = 0x01C then s.aux else if o = 0x020 then s.auxLen
    else if o = 0x024 then infoWord s.params else if o = 0x028 then memSizeWord s.params else 0 := by
  obtain ⟨n, rfl⟩ : ∃ n, o = 4 * n := ⟨o / 4, by omega⟩
  have hn : n < 64 := by omega
  clear h4 hlt
  interval_cases n <;> rfl

/-- Settles O14: one read is one `deliver`, and the map's value at the offset is the field sum of R24, R27. -/
theorem registerReadsFollowTheMap : Obligations.RegisterReadsFollowTheMap := by
  intro s rest o hp h4 hlt
  rw [step_readReg hp h4 hlt, regRead_atOffset h4 hlt, ctrlWord_eq, statusWord_eq]
  rfl

/-- Settles O15: the write is `writeCtrl`, the read `ctrlWord`. -/
theorem ctrlWritesModeAndSetsKeyLock : Obligations.CtrlWritesModeAndSetsKeyLock := by
  have field : ∀ b : Bool, flagAt 8 b = (BitVec.ofBool b).setWidth 32 <<< 8 := by decide
  refine ⟨fun s rest v hp => ?_, fun s rest hp => ?_, rfl, rfl⟩
  · have hlock : (s.keyLock || v.getLsbD 8) = if v.getLsbD 8 then true else s.keyLock := by
      cases v.getLsbD 8 <;> simp
    rw [step_writeReg hp rfl (by decide) (by decide), ← hlock]
    rfl
  · rw [step_readReg hp rfl (by decide), ← field]
    rfl

/-- Settles O19: the map has no write at a read-only register, and a read only delivers. -/
theorem readOnlyWritesAreIgnoredAndReadsHaveNoEffect :
    Obligations.ReadOnlyWritesAreIgnoredAndReadsHaveNoEffect := by
  refine ⟨fun s rest v o ho hp => ?_, fun s rest o h4 hlt hp => ⟨_, step_readReg hp h4 hlt⟩⟩
  rcases ho with rfl | rfl | rfl | rfl
  all_goals exact step_writeReg hp rfl (by decide) (by decide)

/-- Settles O17: each IV or NONCE write is the map's, whose mask update is `setMaskBit`. -/
theorem ivAndNonceWritesSetTheirMaskBits : Obligations.IvAndNonceWritesSetTheirMaskBits := by
  refine fun s rest v => ⟨fun k hp => ?_, fun hp => ?_, fun hp => ?_⟩
  · rw [step_writeReg hp (by omega) (by omega) (by simp only [cmdOffset]; omega), regOfSlot_iv]
    rfl
  · exact step_writeReg hp rfl (by decide) (by decide)
  · exact step_writeReg hp rfl (by decide) (by decide)

/-! ### KEY and reserved offsets -/

theorem writeKey_stored {k : Fin 16} {s : State} (v : Word) (hl : s.keyLock = false) (hk : k.val < s.params.keyWords) :
    writeKey k v s = { s with key := s.key.set k v, keyMask := setMaskBit s.keyMask k } :=
  if_pos ⟨hk, hl⟩

theorem writeKey_locked {k : Fin 16} {s : State} (v : Word) (hl : s.keyLock = true) : writeKey k v s = s :=
  if_neg fun h => by simp [hl] at h

theorem writeKey_pastKeyWords {k : Fin 16} {s : State} (v : Word) (hk : s.params.keyWords ≤ k.val) :
    writeKey k v s = s :=
  if_neg fun h => by omega

/-- A write at a KEY offset is `writeKey` (R37). -/
theorem step_writeKey {s : State} {rest : List HostEvent} {v : Word} {k : Fin 16}
    (hp : s.pending = .reg (0x080 + 4 * k.val) (.write 4 v) :: rest) :
    step s = .next (writeKey k v { s with pending := rest }) := by
  rw [step_writeReg hp (by omega) (by omega) (by simp only [cmdOffset]; omega), regOfSlot_key]
  rfl

/-- Settles O18: the three cases of `writeKey`. -/
theorem keyWritesAreStoredUnlessLocked : Obligations.KeyWritesAreStoredUnlessLocked := by
  refine fun s rest v k hp => ⟨fun hl hk => ?_, fun hl => ?_, fun hk => ?_⟩
  · rw [step_writeKey hp, writeKey_stored (s := { s with pending := rest }) v hl hk]
    rfl
  · rw [step_writeKey hp, writeKey_locked (s := { s with pending := rest }) v hl]
  · rw [step_writeKey hp, writeKey_pastKeyWords (s := { s with pending := rest }) v hk]

/-- What R40 asks of the register at an offset: it reads 0 and a write of it changes nothing. -/
abbrev Inert (r : Reg) (s : State) : Prop := regRead r s = 0 ∧ ∀ v, regWrite r v s = s

/-- Accesses to an inert register (R40). -/
theorem step_inert {s : State} {rest : List HostEvent} {o : Nat} (h4 : o % 4 = 0) (hlt : o < 0x100)
    (hc : o ≠ cmdOffset) (hi : Inert (regOfSlot (o / 4)) { s with pending := rest }) :
    (s.pending = .reg o (.read 4) :: rest →
      step s = .next { s with pending := rest, results := s.results ++ [0] }) ∧
    (∀ v, s.pending = .reg o (.write 4 v) :: rest → step s = .next { s with pending := rest }) := by
  obtain ⟨hread, hwrite⟩ := hi
  refine ⟨fun hp => ?_, fun v hp => ?_⟩
  · rw [step_readReg hp h4 hlt, hread]
    rfl
  · rw [step_writeReg hp h4 hlt hc, hwrite]

/-- Settles O20: reserved slots and KEY words past KEY_WORDS are inert. -/
theorem reservedOffsetsReadZeroAndIgnoreWrites : Obligations.ReservedOffsetsReadZeroAndIgnoreWrites := by
  intro s rest o h4 ho
  refine step_inert h4 (by omega) (by simp only [cmdOffset]; omega) ?_
  by_cases hkey : 0x080 ≤ o ∧ o ≤ 0x0BC
  · obtain ⟨k, rfl⟩ : ∃ k : Fin 16, o = 0x080 + 4 * k.val := ⟨⟨(o - 0x080) / 4, by omega⟩, by simp only; omega⟩
    rw [regOfSlot_key]
    exact ⟨rfl, fun v => writeKey_pastKeyWords v (by simp only; omega)⟩
  · rw [regOfSlot_reserved (by omega)]
    exact ⟨rfl, fun v => rfl⟩

end Sys2Proof.Machine
end

section
/-! PROOFS. What every command leaves of the registers and the masks (10_state.md R23, R41; 60_exceptions.md R207). -/

namespace Sys2Proof.Machine

open Sys2Proof

/-- The register frame of the command procedure, in each of its three outcomes. -/
theorem execute_keepsRegisters (i : Instr) (s : State) : s.KeepsRegisters (execute i (bodyOf i) s) := by
  rcases execute_cases i (bodyOf i) s with ⟨e, -, h⟩ | ⟨out, p, -, -, h⟩ | ⟨-, -, h⟩
  all_goals
    rw [h]
    exact ⟨rfl, rfl, rfl, rfl, rfl, rfl, rfl, rfl, rfl, rfl, rfl, rfl, rfl, rfl, rfl⟩

/-- The command ended by itself and not at one of its checks: it succeeded, or found its padding invalid (R207). -/
abbrev State.PassedChecks (t : State) : Prop := t.err = false ∨ t.errCode = 2

/-- A command that fails a check does not count as having passed them. -/
theorem not_passedChecks_raiseError {e : ErrorKind} {s : State} (h : e ≠ .invalidPadding) :
    ¬ (raiseError e s).PassedChecks := by
  have code : e.code ≠ 2 := by revert h; cases e <;> decide
  exact not_or.2 ⟨nofun, code⟩

/-- Which masks a command leaves: those of `consume` when it passed its checks, its own when it did not (R207). -/
theorem execute_masks (i : Instr) (s : State) :
    ((execute i (bodyOf i) s).PassedChecks ∧ firstFailure (checks i s) = none ∧
      (execute i (bodyOf i) s).ivMask = (consume i s).ivMask ∧
      (execute i (bodyOf i) s).nonceMask = (consume i s).nonceMask) ∨
    (¬ (execute i (bodyOf i) s).PassedChecks ∧
      (execute i (bodyOf i) s).ivMask = s.ivMask ∧ (execute i (bodyOf i) s).nonceMask = s.nonceMask) := by
  rcases execute_cases i (bodyOf i) s with ⟨e, hc, h⟩ | ⟨out, p, hc, -, h⟩ | ⟨hc, -, h⟩ <;> rw [h]
  · exact .inr ⟨not_passedChecks_raiseError (firstFailure_checks_ne hc), rfl, rfl⟩
  · exact .inl ⟨.inl rfl, hc, rfl, rfl⟩
  · exact .inl ⟨.inr rfl, hc, rfl, rfl⟩

/-- A command writes the IV and nonce masks only to clear them. -/
theorem execute_masks_kept_or_cleared (i : Instr) (s : State) :
    ((execute i (bodyOf i) s).ivMask = s.ivMask ∨ (execute i (bodyOf i) s).ivMask = 0) ∧
    ((execute i (bodyOf i) s).nonceMask = s.nonceMask ∨ (execute i (bodyOf i) s).nonceMask = 0) := by
  rcases execute_masks i s with ⟨-, -, hiv, hn⟩ | ⟨-, hiv, hn⟩
  · rw [hiv, hn, consume_ivMask, consume_nonceMask]
    exact ⟨(ite_eq_or_eq ..).symm, (ite_eq_or_eq ..).symm⟩
  · exact ⟨.inl hiv, .inl hn⟩

/-- Settles O29: the frame of the command procedure. -/
theorem commandsKeepAllOtherRegisters : Obligations.CommandsKeepAllOtherRegisters := by
  intro i s t h
  rw [exec_next] at h
  subst h
  exact ⟨execute_keepsRegisters i s, execute_masks_kept_or_cleared i s⟩

/-- Settles O33: the outcome says whether step 6 was passed, and only then are the masks those of `consume`. -/
theorem ivAndNonceAreSingleUse : Obligations.IvAndNonceAreSingleUse := by
  intro i s t h
  rw [exec_next] at h
  subst h
  obtain ⟨-, -, -, -, -, -, -, hiv, hlo, hhi, -⟩ := execute_keepsRegisters i s
  rcases execute_masks i s with ⟨hpass, hc, hmiv, hmn⟩ | ⟨hpass, hmiv, hmn⟩
  · obtain ⟨-, -, -, -, -, -, -, -, hneedsIV, hneedsNonce⟩ := checks_pass_iff.1 hc
    rw [needsIV_iff] at hneedsIV
    rw [needsNonce_iff] at hneedsNonce
    refine ⟨fun _ => ⟨?_, ?_, hneedsIV, hneedsNonce⟩, fun herr hcode => ?_, hiv, hlo, hhi⟩
    · simp only [hmiv, consume_ivMask, needsIV_iff]
    · simp only [hmn, consume_nonceMask, needsNonce_iff]
    · exact absurd hpass (not_or.2 ⟨by simp [herr], hcode⟩)
  · exact ⟨fun h => absurd h hpass, fun _ _ => ⟨hmiv, hmn⟩, hiv, hlo, hhi⟩

/-- Settles O16: writes and reads by the map, and the frame of the commands. -/
theorem operandRegistersHoldWhatTheHostWrites : Obligations.OperandRegistersHoldWhatTheHostWrites := by
  refine ⟨fun s rest v => ?_, fun s rest o v ho hp => ?_, fun s t i h => ?_, rfl, rfl, rfl, rfl, rfl⟩
  · refine ⟨fun hp => ?_, fun hp => ?_, fun hp => ?_, fun hp => ?_, fun hp => ?_⟩
    all_goals exact step_writeReg hp rfl (by decide) (by decide)
  · rcases ho with ⟨rfl, rfl⟩ | ⟨rfl, rfl⟩ | ⟨rfl, rfl⟩ | ⟨rfl, rfl⟩ | ⟨rfl, rfl⟩
    all_goals exact step_readReg hp rfl (by decide)
  · rw [exec_next] at h
    subst h
    obtain ⟨-, -, hsrc, hlen, hdst, haux, hauxLen, -⟩ := execute_keepsRegisters i s
    exact ⟨hsrc, hlen, hdst, haux, hauxLen⟩

end Sys2Proof.Machine
end

section
/-! PROOFS. The invariant of the machine (10_state.md R27, R31, R41, R44; 60_exceptions.md R209, R210). -/

namespace Sys2Proof.Machine

open Sys2Proof

/-- Settles O9, field by field. -/
theorem resetMeetsInvariant : Obligations.ResetMeetsInvariant :=
  ⟨by decide, ⟨rfl, nofun⟩, by decide, by decide, by decide⟩

/-! ### Completions -/

/-- An error completion sets the flags and OUT_LEN as the invariant asks (R209). -/
theorem raiseError_inv {s : State} (e : ErrorKind) (h : s.Inv) : (raiseError e s).Inv := by
  obtain ⟨hp, hbuf, -, -, hkey⟩ := h
  obtain ⟨hne, hle⟩ : e.code ≠ 0 ∧ e.code.toNat ≤ 7 := by cases e <;> decide
  exact ⟨hp, hbuf, ⟨⟨fun _ => hne, fun _ => rfl⟩, hle, nofun⟩, ⟨Nat.zero_le _, fun _ => rfl⟩, hkey⟩

/-- A write that lies inside BUF keeps BUF inside its bound (R44). -/
theorem bufInv_writeBytes {s : State} {a : Nat} {v : List Byte} (h : s.BufInv)
    (hfit : v = [] ∨ a + v.length ≤ s.params.memBytes) : State.BufInv { s with buf := s.buf.writeBytes a v } := by
  obtain ⟨hwf, hin⟩ := h
  refine ⟨Memory.wf_writeBytes hwf a v, fun c hc => ?_⟩
  rcases Memory.mem_writeBytes hc with hold | ⟨-, hlt⟩
  · exact hin c hold
  · rcases hfit with rfl | hfit
    · exact hin c hc
    · exact hlt.trans_le hfit

theorem statusInv_of_noError {s : State} (he : s.err = false) (hc : s.errCode = 0) : s.StatusInv :=
  ⟨by rw [he, hc]; decide, by rw [hc]; decide, fun _ => he⟩

/-- A success completion whose output lies inside BUF keeps the invariant (R210). -/
theorem complete_inv {s : State} {out : List Byte} (p : Bool) (h : s.Inv)
    (hfit : out = [] ∨ s.DstFits out.length) : (complete out p s).Inv := by
  obtain ⟨hp, hbuf, -, -, hkey⟩ := h
  have hlen : out.length ≤ s.params.memBytes := by
    rcases hfit with rfl | hfit
    · exact Nat.zero_le _
    · exact (Nat.le_add_left ..).trans hfit
  refine ⟨hp, bufInv_writeBytes hbuf hfit, statusInv_of_noError rfl rfl, ⟨?_, nofun⟩, hkey⟩
  rw [complete_outLen, BitVec.toNat_ofNat]
  exact (Nat.mod_le ..).trans hlen

/-- The output of a command that passed its checks lies inside BUF: CHECK has none, and MaxOut of every other command
fits at DST (R204). -/
theorem bodyOf_output_fits {i : Instr} {s : State} {out : List Byte} {p : Bool}
    (hc : firstFailure (checks i s) = none) (hb : bodyOf i s = .complete out p) : out = [] ∨ s.DstFits out.length := by
  by_cases hd : usesDst i = true
  · obtain ⟨-, -, -, -, hfit, -⟩ := checks_pass_iff.1 hc
    exact .inr ((Nat.add_le_add_left (bodyOf_length_le hb) _).trans (hfit hd))
  · cases i with
    | check => cases hb; exact .inl rfl
    | _ => exact absurd rfl hd

/-- A command keeps the invariant, whatever its outcome. The masks that `consume` clears are no part of it. -/
theorem execute_inv {s : State} (i : Instr) (h : s.Inv) : (execute i (bodyOf i) s).Inv := by
  have hconsume : (consume i s).Inv := h
  rcases execute_cases i (bodyOf i) s with ⟨e, -, ht⟩ | ⟨out, p, hc, hb, ht⟩ | ⟨-, -, ht⟩ <;> rw [ht]
  · exact raiseError_inv e h
  · have hfit := bodyOf_output_fits hc hb
    exact complete_inv p hconsume hfit
  · exact raiseError_inv _ hconsume

/-! ### Host accesses and reset -/

/-- A KEY write sets no mask bit at or above KEY_WORDS (R41). -/
theorem writeKey_inv {s : State} (k : Fin 16) (v : Word) (h : s.Inv) : (writeKey k v s).Inv := by
  unfold writeKey
  split
  · next hk =>
    obtain ⟨hp, hbuf, hstatus, hout, hkey⟩ := h
    refine ⟨hp, hbuf, hstatus, hout, ?_⟩
    have hbit : (1#16 <<< k.val).toNat < 2 ^ s.params.keyWords := by
      rw [BitVec.toNat_shiftLeft, BitVec.toNat_one (by decide), Nat.one_shiftLeft]
      exact (Nat.mod_le ..).trans_lt (Nat.pow_lt_pow_right (by decide) hk.1)
    show (setMaskBit s.keyMask k).toNat < _
    rw [setMaskBit, BitVec.toNat_or]
    exact Nat.or_lt_two_pow hkey hbit
  · exact h

theorem regWrite_inv {s : State} (r : Reg) (v : Word) (h : s.Inv) : (regWrite r v s).Inv := by
  cases r with
  | key k => exact writeKey_inv k v h
  | _ => exact h

theorem applyReset_inv {s : State} (d : ResetDraw) (h : s.Inv) : (applyReset d s).Inv := by
  obtain ⟨hp, -⟩ := h
  refine ⟨hp, ⟨Memory.wf_ofCells _ _, fun c => Memory.mem_ofCells⟩, statusInv_of_noError rfl rfl,
    ⟨Nat.zero_le _, nofun⟩, ?_⟩
  exact Nat.two_pow_pos s.params.keyWords

/-- An event that is taken keeps the invariant: a BUF write is taken only inside BUF (R63). -/
theorem perform_inv {s : State} {ev : HostEvent} {a : Action} (h : s.Inv) (ha : take s.params ev = .ok a) :
    (perform a s).Inv := by
  rcases take_cases ha with ⟨v, rfl⟩ | ⟨r, rfl⟩ | ⟨r, v, rfl⟩ | ⟨w, b, rfl⟩ | ⟨w, b, v, hb, rfl⟩ | ⟨d, -, rfl⟩
  · exact h
  · exact h
  · exact regWrite_inv r v h
  · exact h
  · obtain ⟨hp, hbuf, hrest⟩ := h
    exact ⟨hp, bufInv_writeBytes hbuf (.inr (by simpa using bufAccessTaken_bound hb)), hrest⟩
  · exact applyReset_inv d h

@[simp] theorem writeKey_params (k : Fin 16) (v : Word) (s : State) : (writeKey k v s).params = s.params := by
  unfold writeKey
  split <;> rfl

@[simp] theorem perform_params (a : Action) (s : State) : (perform a s).params = s.params := by
  cases a with
  | writeReg r v =>
    cases r with
    | key k => exact writeKey_params k v s
    | _ => rfl
  | _ => rfl

theorem execute_params (i : Instr) (s : State) : (execute i (bodyOf i) s).params = s.params := by
  obtain ⟨-, -, -, -, -, -, -, -, -, -, -, -, hparams, -⟩ := execute_keepsRegisters i s
  exact hparams

/-- Settles O10: the invariant and the parameters are kept by each thing a step can be. -/
theorem stepKeepsInvariant : Obligations.StepKeepsInvariant := by
  intro s t h ht
  rcases step_cases ht with ⟨-, rfl⟩ | ⟨ev, rest, -, ⟨v, i, -, -, rfl⟩ | ⟨v, e, -, -, rfl⟩ | ⟨a, ha, -, rfl⟩⟩
  · exact ⟨h, rfl⟩
  · exact ⟨execute_inv i (s := { s with pending := rest }) h, execute_params i _⟩
  · exact ⟨raiseError_inv _ (s := { s with pending := rest }) h, rfl⟩
  · exact ⟨perform_inv (s := { s with pending := rest }) h ha, perform_params a _⟩

end Sys2Proof.Machine
end

section
/-! PROOFS. What the contents of IV, NONCE and KEY can reach (10_state.md R28, R39, R41, R45; 60_exceptions.md R206). -/

namespace Sys2Proof.Machine

open Sys2Proof

/-! ### Steps of two related states -/

/-- Two states with the same parameters and events step to related states, when each thing a step can be relates what
it leaves. -/
theorem step_related {R : State → State → Prop} {s t : State} (hparams : t.params = s.params)
    (hpending : t.pending = s.pending) (hidle : R s t)
    (hcommand : ∀ ev rest v i, s.pending = ev :: rest → take s.params ev = .ok (.command v) → decode v = .ok i →
      R (execute i (bodyOf i) { s with pending := rest }) (execute i (bodyOf i) { t with pending := rest }))
    (hillegal : ∀ rest, R (illegalCommand { s with pending := rest }) (illegalCommand { t with pending := rest }))
    (hperform : ∀ rest a, R (perform a { s with pending := rest }) (perform a { t with pending := rest })) :
    ∀ s', step s = .next s' → ∃ t', step t = .next t' ∧ R s' t' := by
  intro s' h
  rcases step_cases h with ⟨hp, rfl⟩ | ⟨ev, rest, hp, ⟨v, i, ha, hi, rfl⟩ | ⟨v, e, ha, he, rfl⟩ | ⟨a, ha, hc, rfl⟩⟩
  · exact ⟨t, step_of_pending_nil (hpending.trans hp), hidle⟩
  · refine ⟨_, ?_, hcommand ev rest v i hp ha hi⟩
    rw [step_command (hpending.trans hp) (hparams ▸ ha), runCommand_of_decode hi, exec_eq]
  · exact ⟨_, (step_command (hpending.trans hp) (hparams ▸ ha)).trans (runCommand_of_illegal he _), hillegal rest⟩
  · exact ⟨_, step_perform (hpending.trans hp) (hparams ▸ ha) hc, hperform rest a⟩

/-- An event that is taken is never refused (R215). -/
theorem act_ne_refused (a : Action) (s : State) (r : Refusal) : act a s ≠ .refused r := by
  cases a with
  | command v =>
    cases hd : decode v with
    | ok i => simp only [act, runCommand_of_decode hd, exec_eq]; exact nofun
    | error e => simp only [act, runCommand_of_illegal hd]; exact nofun
  | _ => exact nofun

theorem step_refused_iff {s : State} {r : Refusal} :
    step s = .refused r ↔ ∃ ev rest, s.pending = ev :: rest ∧ take s.params ev = .error r := by
  refine ⟨fun h => ?_, fun ⟨ev, rest, hp, ha⟩ => step_refused hp ha⟩
  unfold step at h
  split at h
  · cases h
  · next ev rest hp =>
    split at h
    · exact absurd h (act_ne_refused _ _ _)
    · next r' ha =>
      cases h
      exact ⟨ev, rest, hp, ha⟩

/-! ### States equal but for the contents of IV, NONCE and KEY -/

/-- Such a state is the other one with some contents of IV, NONCE and KEY in their place. -/
theorem equalButSecrets_iff {s t : State} : s.EqualButSecrets t ↔
    ∃ iv lo hi key, t = { s with iv := iv, nonceLo := lo, nonceHi := hi, key := key } :=
  ⟨fun h => ⟨_, _, _, _, h⟩, by rintro ⟨iv, lo, hi, key, rfl⟩; rfl⟩

section
variable {s t : State} (h : s.EqualButSecrets t)
include h

theorem equalButSecrets_mode : t.mode = s.mode := by rw [h]

theorem equalButSecrets_params : t.params = s.params := by rw [h]

theorem equalButSecrets_pending : t.pending = s.pending := by rw [h]

theorem equalButSecrets_srcBytes : srcBytes t = srcBytes s := by rw [h]; rfl

theorem equalButSecrets_popped (rest : List HostEvent) :
    State.EqualButSecrets { s with pending := rest } { t with pending := rest } := by
  obtain ⟨iv, lo, hi, key, rfl⟩ := equalButSecrets_iff.1 h
  rfl

/-- No read returns anything of IV, NONCE or KEY (R39). -/
theorem equalButSecrets_regRead (r : Reg) : regRead r t = regRead r s := by
  obtain ⟨iv, lo, hi, key, rfl⟩ := equalButSecrets_iff.1 h
  cases r <;> rfl

theorem equalButSecrets_writeKey (k : Fin 16) (v : Word) : (writeKey k v s).EqualButSecrets (writeKey k v t) := by
  obtain ⟨iv, lo, hi, key, rfl⟩ := equalButSecrets_iff.1 h
  unfold writeKey
  split <;> rfl

theorem equalButSecrets_regWrite (r : Reg) (v : Word) : (regWrite r v s).EqualButSecrets (regWrite r v t) := by
  cases r with
  | key k => exact equalButSecrets_writeKey h k v
  | _ =>
    obtain ⟨iv, lo, hi, key, rfl⟩ := equalButSecrets_iff.1 h
    rfl

/-- An action that is not a command spreads no difference. -/
theorem equalButSecrets_perform (a : Action) : (perform a s).EqualButSecrets (perform a t) := by
  cases a with
  | readReg r =>
    simp only [perform, equalButSecrets_regRead h]
    obtain ⟨iv, lo, hi, key, rfl⟩ := equalButSecrets_iff.1 h
    rfl
  | writeReg r v => exact equalButSecrets_regWrite h r v
  | _ =>
    obtain ⟨iv, lo, hi, key, rfl⟩ := equalButSecrets_iff.1 h
    rfl

theorem equalButSecrets_illegalCommand : (illegalCommand s).EqualButSecrets (illegalCommand t) := by
  obtain ⟨iv, lo, hi, key, rfl⟩ := equalButSecrets_iff.1 h
  rfl

/-- The checks look at the masks and not at the words behind them (R28, R200). -/
theorem equalButSecrets_checks (i : Instr) : checks i t = checks i s := by
  obtain ⟨iv, lo, hi, key, rfl⟩ := equalButSecrets_iff.1 h
  rfl

/-- A command whose body ends alike spreads no difference. -/
theorem equalButSecrets_execute {i : Instr} (hbody : firstFailure (checks i s) = none → bodyOf i t = bodyOf i s) :
    (execute i (bodyOf i) s).EqualButSecrets (execute i (bodyOf i) t) := by
  simp only [execute, equalButSecrets_checks h]
  cases hc : firstFailure (checks i s) with
  | some e =>
    obtain ⟨iv, lo, hi, key, rfl⟩ := equalButSecrets_iff.1 h
    rfl
  | none =>
    rw [hbody hc]
    obtain ⟨iv, lo, hi, key, rfl⟩ := equalButSecrets_iff.1 h
    cases bodyOf i s <;> rfl

/-- ECB and CBC decryption depend on the key and, in CBC, the IV. -/
theorem equalButSecrets_blockDecrypt (hkey : keyBytes t = keyBytes s) (hiv : s.mode = modeCbc → t.iv = s.iv) :
    blockDecrypt t = blockDecrypt s := by
  simp only [blockDecrypt, equalButSecrets_mode h, equalButSecrets_params h, equalButSecrets_srcBytes h, hkey]
  split
  · next hm => rw [ivBlock, ivBytes, hiv hm, ivBlock, ivBytes]
  · rfl

/-- A body depends on the key, the IV and the nonce only as the tables of R200 say its command needs them. -/
theorem equalButSecrets_bodyOf {i : Instr} (hkey : needsKey i = true → keyBytes t = keyBytes s)
    (hiv : needsIV i s.mode = true → t.iv = s.iv) (hnonce : needsNonce i s.mode = true → nonceVal t = nonceVal s) :
    bodyOf i t = bodyOf i s := by
  have hmode := equalButSecrets_mode h
  have hparams := equalButSecrets_params h
  have hsrc := equalButSecrets_srcBytes h
  have hctr (hk : keyBytes t = keyBytes s) (hn : nonceVal t = nonceVal s) : ctrBody t = ctrBody s := by
    rw [ctrBody, ctrBody, hparams, hk, hn, hsrc]
  cases i with
  | pad bs => rw [bodyOf, padBody, padBody, hsrc]
  | unpad bs => rw [bodyOf, unpadBody, unpadBody, hsrc]
  | xor => rw [h]; rfl
  | blkEnc =>
    simp only [bodyOf, blkEncBody, hkey rfl, hparams]
    rw [h]
  | blkDec =>
    simp only [bodyOf, blkDecBody, hkey rfl, hparams]
    rw [h]
  | enc =>
    simp only [bodyOf, encBody, hmode, hparams, hsrc, hkey rfl]
    split
    · next hm => exact hctr (hkey rfl) (hnonce (beq_iff_eq.2 hm))
    · split
      · next hm => rw [ivBlock, ivBytes, hiv (beq_iff_eq.2 hm), ivBlock, ivBytes]
      · rfl
  | dec =>
    simp only [bodyOf, decBody, hmode]
    split
    · next hm => exact hctr (hkey rfl) (hnonce (beq_iff_eq.2 hm))
    · rw [equalButSecrets_blockDecrypt h (hkey rfl) fun hm => hiv (beq_iff_eq.2 hm)]
  | check =>
    rw [bodyOf, checkBody, checkBody, equalButSecrets_blockDecrypt h (hkey rfl) fun hm => hiv (beq_iff_eq.2 hm)]
  | ctrXcrypt => exact hctr (hkey rfl) (hnonce rfl)

end

/-- A command that needs the IV or the nonce needs the key (R200). -/
theorem needsIV_needsNonce_of_not_needsKey {i : Instr} (h : needsKey i = false) (m : BitVec 2) :
    needsIV i m = false ∧ needsNonce i m = false := by
  cases i with
  | pad | unpad | xor => exact ⟨rfl, rfl⟩
  | _ => cases h

/-- Settles O13: without a command that uses the key, what a step leaves differs only where the states differed. -/
theorem secretsReachNothingWithoutTheCipher : Obligations.SecretsReachNothingWithoutTheCipher := by
  intro s t h hnext
  refine step_related (equalButSecrets_params h) (equalButSecrets_pending h) h (fun ev rest v i hp ha hi => ?_)
    (fun rest => equalButSecrets_illegalCommand (equalButSecrets_popped h rest))
    (fun rest a => equalButSecrets_perform (equalButSecrets_popped h rest) a)
  have hkey := hnext ev rest v i hp ha hi
  obtain ⟨hiv, hnonce⟩ := needsIV_needsNonce_of_not_needsKey hkey s.mode
  have hpop := equalButSecrets_popped h rest
  refine equalButSecrets_execute hpop fun _ => equalButSecrets_bodyOf hpop ?_ ?_ ?_
  · simp [hkey]
  · simp [hiv]
  · simp [hnonce]

end Sys2Proof.Machine
end

section
/-! PROOFS. Words of IV, NONCE and KEY that are not written cannot be observed (10_state.md R28, R41, R45). -/

namespace Sys2Proof.Machine

open Sys2Proof

/-! ### Masks -/

/-- The key is loaded when the mask has the bits of the words in use, and those alone (R28). -/
theorem keyLoaded_iff (s : State) :
    s.KeyLoaded ↔ ∀ j, s.keyMask.getLsbD j = decide (j < s.params.keyWords) := by
  simp only [State.KeyLoaded, ← Nat.testBit_two_pow_sub_one]
  exact ⟨fun h j => congrArg (Nat.testBit · j) h, Nat.eq_of_testBit_eq⟩

/-- A mask that is kept or cleared gains no bit. -/
theorem getLsbD_of_kept_or_cleared {n j : Nat} {m m' : BitVec n} (h : m' = m ∨ m' = 0) (hj : m'.getLsbD j = true) :
    m.getLsbD j = true := by
  rcases h with rfl | rfl
  · exact hj
  · simp at hj

/-- Setting a mask bit adds no other (R41). -/
theorem getLsbD_of_setMaskBit_ne {n k j : Nat} {m : BitVec n} (hne : j ≠ k)
    (hj : (setMaskBit m k).getLsbD j = true) : m.getLsbD j = true := by
  rw [getLsbD_setMaskBit _ _ _ (BitVec.lt_of_getLsbD hj), Bool.or_eq_true, decide_eq_true_eq] at hj
  exact hj.resolve_right hne

/-- Words that agree wherever their mask bit is set. -/
abbrev AgreeWhereWritten {n : Nat} (m : BitVec n) (x y : Vector Word n) : Prop :=
  ∀ k : Fin n, m.getLsbD k = true → y[k] = x[k]

/-- Writing one word of both keeps that, with the word's mask bit set. -/
theorem agreeWhereWritten_set {n : Nat} {m : BitVec n} {x y : Vector Word n} (h : AgreeWhereWritten m x y) (k : Fin n)
    (v : Word) : AgreeWhereWritten (setMaskBit m k) (x.set k v) (y.set k v) := by
  intro j hj
  simp only [Fin.getElem_fin, Vector.getElem_set]
  split
  · rfl
  · next hne => exact h j (getLsbD_of_setMaskBit_ne (Ne.symm hne) hj)

/-! ### One step -/

theorem equalButUnwritten_writeKey {s t : State} (h : s.EqualButUnwritten t) (k : Fin 16) (v : Word) :
    (writeKey k v s).EqualButUnwritten (writeKey k v t) := by
  obtain ⟨hs, hiv, hlo, hhi, hkey⟩ := h
  refine ⟨equalButSecrets_writeKey hs k v, ?_⟩
  obtain ⟨iv, lo, hi, key, rfl⟩ := equalButSecrets_iff.1 hs
  unfold writeKey
  split
  · exact ⟨hiv, hlo, hhi, agreeWhereWritten_set hkey k v⟩
  · exact ⟨hiv, hlo, hhi, hkey⟩

/-- A written word is the same in both states, and the bits of the others stay (R41). -/
theorem equalButUnwritten_regWrite {s t : State} (h : s.EqualButUnwritten t) (r : Reg) (v : Word) :
    (regWrite r v s).EqualButUnwritten (regWrite r v t) := by
  have hreg := equalButSecrets_regWrite h.1 r v
  have ⟨_, hiv, hlo, hhi, hkey⟩ := h
  cases r with
  | iv k => exact ⟨hreg, agreeWhereWritten_set hiv k v, hlo, hhi, hkey⟩
  | nonceLo => exact ⟨hreg, hiv, fun _ => rfl, fun hb => hhi (getLsbD_of_setMaskBit_ne (by decide) hb), hkey⟩
  | nonceHi => exact ⟨hreg, hiv, fun hb => hlo (getLsbD_of_setMaskBit_ne (by decide) hb), fun _ => rfl, hkey⟩
  | key k => exact equalButUnwritten_writeKey h k v
  | _ => exact ⟨hreg, hiv, hlo, hhi, hkey⟩

theorem equalButUnwritten_perform {s t : State} (h : s.EqualButUnwritten t) (a : Action) :
    (perform a s).EqualButUnwritten (perform a t) := by
  have hperform := equalButSecrets_perform h.1 a
  have ⟨_, hunwritten⟩ := h
  cases a with
  | writeReg r v => exact equalButUnwritten_regWrite h r v
  | reset d => exact ⟨hperform, fun _ _ => rfl, fun _ => rfl, fun _ => rfl, fun _ _ => rfl⟩
  | _ => exact ⟨hperform, hunwritten⟩

/-- A loaded key has no unwritten word in use. -/
theorem keyBytes_eq_of_keyLoaded {s t : State} (h : s.EqualButUnwritten t) (hl : s.KeyLoaded) :
    keyBytes t = keyBytes s := by
  obtain ⟨hs, -, -, -, hkey⟩ := h
  have hwords : t.key.toList.take s.params.keyWords = s.key.toList.take s.params.keyWords := by
    refine List.ext_getElem (by simp) fun j hj _ => ?_
    have hlt : j < 16 ∧ j < s.params.keyWords := by simpa [and_comm] using hj
    simpa using hkey ⟨j, hlt.1⟩ (by simp [(keyLoaded_iff s).1 hl, hlt.2])
  rw [keyBytes, keyBytes, equalButSecrets_params hs, hwords]

/-- A command that passes its checks reads no unwritten word: the masks are what steps 5 and 6 check (R206, R207). -/
theorem bodyOf_eq_of_checks {s t : State} {i : Instr} (h : s.EqualButUnwritten t)
    (hc : firstFailure (checks i s) = none) : bodyOf i t = bodyOf i s := by
  have ⟨hs, hiv, hlo, hhi, _⟩ := h
  obtain ⟨-, -, -, -, -, -, -, hloaded, hivValid, hnonceValid⟩ := checks_pass_iff.1 hc
  refine equalButSecrets_bodyOf hs (fun hn => keyBytes_eq_of_keyLoaded h (hloaded hn)) (fun hn => ?_) (fun hn => ?_)
  · have hset : ∀ k : Fin 4, s.ivMask.getLsbD k = true := by rw [hivValid hn]; decide
    exact Vector.ext fun k hk => hiv ⟨k, hk⟩ (hset ⟨k, hk⟩)
  · have hmask := hnonceValid hn
    rw [nonceVal, nonceVal, hlo (by rw [hmask]; decide), hhi (by rw [hmask]; decide)]

theorem equalButUnwritten_execute {s t : State} (h : s.EqualButUnwritten t) (i : Instr) :
    (execute i (bodyOf i) s).EqualButUnwritten (execute i (bodyOf i) t) := by
  have hexec := equalButSecrets_execute h.1 (bodyOf_eq_of_checks (i := i) h)
  obtain ⟨-, hiv, hlo, hhi, hkey⟩ := h
  obtain ⟨-, -, -, -, -, -, -, siv, slo, shi, skey, skeyMask, -⟩ := execute_keepsRegisters i s
  obtain ⟨-, -, -, -, -, -, -, tiv, tlo, thi, tkey, -⟩ := execute_keepsRegisters i t
  obtain ⟨hivMask, hnonceMask⟩ := execute_masks_kept_or_cleared i s
  refine ⟨hexec, ?_, ?_, ?_, ?_⟩
  · rw [siv, tiv]
    exact fun k hb => hiv k (getLsbD_of_kept_or_cleared hivMask hb)
  · rw [slo, tlo]
    exact fun hb => hlo (getLsbD_of_kept_or_cleared hnonceMask hb)
  · rw [shi, thi]
    exact fun hb => hhi (getLsbD_of_kept_or_cleared hnonceMask hb)
  · rw [skey, tkey, skeyMask]
    exact hkey

/-- Settles O12: each thing a step can be keeps the two states equal but for unwritten words, and whether an event is
taken does not depend on them. -/
theorem unwrittenSecretWordsAreUnobservable : Obligations.UnwrittenSecretWordsAreUnobservable := by
  intro s t h
  have hparams := equalButSecrets_params h.1
  have hpending := equalButSecrets_pending h.1
  have hpop (rest : List HostEvent) : State.EqualButUnwritten { s with pending := rest } { t with pending := rest } :=
    ⟨equalButSecrets_popped h.1 rest, h.2⟩
  refine ⟨step_related hparams hpending h (fun _ rest _ i _ _ _ => equalButUnwritten_execute (hpop rest) i)
    (fun rest => ⟨equalButSecrets_illegalCommand (hpop rest).1, h.2⟩)
    (fun rest a => equalButUnwritten_perform (hpop rest) a), fun r hr => ?_⟩
  obtain ⟨ev, rest, hp, ha⟩ := step_refused_iff.1 hr
  exact step_refused (hpending.trans hp) (hparams ▸ ha)

end Sys2Proof.Machine
end

section
/-! PROOFS. The byte views of IV and KEY, and what writing all their words leaves (10_state.md R35, R38). -/

namespace Sys2Proof.Machine

open Sys2Proof

/-! ### The words of a byte sequence -/

theorem wordBytes_hexWord {h : List Byte} {k : Nat} (hk : 4 * k + 4 ≤ h.length) :
    wordBytes 4 (hexWord h k) = slice h (4 * k) (4 * k + 4) := by
  have hl : (slice h (4 * k) (4 * k + 4)).length = 4 := by rw [slice_length _ _ _ hk]; omega
  have hbytes := wordBytes_leValue (slice h (4 * k) (4 * k + 4)) hl.le
  rwa [hl] at hbytes

/-- The bytes of the first `n` little-endian words of a sequence are its first `4n` bytes. -/
theorem flatMap_hexWord_take (h : List Byte) (n : Nat) (hn : 4 * n ≤ h.length) :
    ((List.range n).map (hexWord h)).flatMap (wordBytes 4) = h.take (4 * n) := by
  induction n with
  | zero => rfl
  | succ n ih =>
    rw [List.range_succ, List.map_append, List.flatMap_append, ih (by omega), List.map_singleton,
      List.flatMap_singleton, wordBytes_hexWord (by omega), slice, Nat.add_sub_cancel_left, Nat.mul_succ, List.take_add]

/-- The bytes of all its little-endian words are the sequence. -/
theorem flatMap_hexWord {h : List Byte} {n : Nat} (hn : h.length = 4 * n) :
    ((List.range n).map (hexWord h)).flatMap (wordBytes 4) = h := by
  rw [flatMap_hexWord_take h n hn.ge, List.take_of_length_le hn.le]

/-! ### IV -/

/-- Four writes in order replace all four words. -/
theorem toList_set_all_iv (x : Vector Word 4) (f : Nat → Word) :
    ((((x.set 0 (f 0)).set 1 (f 1)).set 2 (f 2)).set 3 (f 3)).toList = (List.range 4).map f := by
  refine List.ext_getElem (by simp) fun j hj _ => ?_
  have hlt : j < 4 := by simpa using hj
  interval_cases j <;> simp

/-- Settles O21: bytes of words by index, and the words of bytes put together. -/
theorem ivBytesAreTheWordsLittleEndian : Obligations.IvBytesAreTheWordsLittleEndian := by
  refine ⟨fun s => ⟨?_, fun k j => ?_⟩, fun s h hlen => ⟨?_, ?_⟩⟩
  · rw [ivBytes, flatMap_wordBytes_length, Vector.length_toList]
  · rw [ivBytes, flatMap_wordBytes_getElem? _ _ _ j.isLt]
    simp
  · exact (congrArg _ (toList_set_all_iv s.iv (hexWord h))).trans (flatMap_hexWord hlen)
  · have allSet : ∀ m : BitVec 4, setMaskBit (setMaskBit (setMaskBit (setMaskBit m 0) 1) 2) 3 = 0b1111 := by decide
    exact allSet s.ivMask

/-! ### KEY -/

/-- Host writes of the KEY words `ks` with the little-endian words of `h` (R38). -/
def writeKeyWords (h : List Byte) (ks : List (Fin 16)) (s : State) : State :=
  ks.foldl (fun u k => regWrite (.key k) (hexWord h k.val) u) s

/-- Writes of KEY words in use, with KEYLOCK = 0, store each of them and set its mask bit (R37). -/
theorem writeKeyWords_stored (h : List Byte) (ks : List (Fin 16)) {s : State} (hl : s.keyLock = false)
    (hks : ∀ k ∈ ks, k.val < s.params.keyWords) :
    (writeKeyWords h ks s).params = s.params ∧
    (∀ j : Fin 16, (writeKeyWords h ks s).key[j] = if j ∈ ks then hexWord h j else s.key[j]) ∧
    ∀ j : Fin 16, (writeKeyWords h ks s).keyMask.getLsbD j = (s.keyMask.getLsbD j || decide (j ∈ ks)) := by
  induction ks generalizing s with
  | nil => simp [writeKeyWords]
  | cons k ks ih =>
    obtain ⟨hk, hks⟩ := List.forall_mem_cons.1 hks
    obtain ⟨hparams, hkey, hmask⟩ :=
      ih (s := { s with key := s.key.set k (hexWord h k), keyMask := setMaskBit s.keyMask k }) hl hks
    have hhead : writeKeyWords h (k :: ks) s = writeKeyWords h ks (writeKey k (hexWord h k) s) := rfl
    rw [hhead, writeKey_stored _ hl hk]
    refine ⟨hparams, fun j => ?_, fun j => ?_⟩
    · rw [hkey]
      by_cases hj : j = k
      · subst hj; simp
      · have hne : k.val ≠ j.val := fun e => hj (Fin.ext e.symm)
        simp [hj, Vector.getElem_set_ne _ _ hne]
    · rw [hmask, getLsbD_setMaskBit _ _ _ j.isLt]
      simp [Fin.ext_iff, Bool.or_assoc]

theorem keyWords_of_legal {p : Params} (h : p.Legal) :
    p.keyBytes = 4 * p.keyWords ∧ 1 ≤ p.keyWords ∧ p.keyWords ≤ 16 := by
  obtain ⟨h4, hlo, hhi, -⟩ := h
  rw [Params.keyWords]
  omega

/-- The KEY words in use, in order (R38). -/
abbrev keyWordsInUse (p : Params) : List (Fin 16) := (List.finRange 16).filter fun k => k.val < p.keyWords

/-- KEY_BYTES bytes written to an unlocked BCME's KEY words are its key, and load it (R28, R38). -/
theorem writeKeyWords_all {s : State} {h : List Byte} (hp : s.params.Legal) (hlen : h.length = s.params.keyBytes)
    (hl : s.keyLock = false) (hinv : s.KeyMaskInv) :
    keyBytes (writeKeyWords h (keyWordsInUse s.params) s) = h ∧
    (writeKeyWords h (keyWordsInUse s.params) s).KeyLoaded := by
  obtain ⟨hbytes, -, h16⟩ := keyWords_of_legal hp
  obtain ⟨hparams, hkey, hmask⟩ := writeKeyWords_stored h (keyWordsInUse s.params) hl (by simp)
  constructor
  · have hwords : (writeKeyWords h (keyWordsInUse s.params) s).key.toList.take s.params.keyWords =
        (List.range s.params.keyWords).map (hexWord h) := by
      refine List.ext_getElem (by simp [h16]) fun j _ hj => ?_
      have hlt : j < s.params.keyWords := by simpa using hj
      simpa [hlt] using hkey ⟨j, by omega⟩
    rw [keyBytes, hparams, hwords, flatMap_hexWord (hlen.trans hbytes)]
  · rw [keyLoaded_iff, hparams]
    intro j
    by_cases hj : j < 16
    · have hhigh : s.params.keyWords ≤ j → s.keyMask.getLsbD j = false := fun hle =>
        Nat.testBit_lt_two_pow (hinv.trans_le (Nat.pow_le_pow_right (by decide) hle))
      rw [hmask ⟨j, hj⟩]
      by_cases hlt : j < s.params.keyWords
      · simp [hlt]
      · simpa [hlt] using hhigh (by omega)
    · rw [BitVec.getLsbD_of_ge _ _ (by omega), eq_comm, decide_eq_false_iff_not]
      omega

/-- Settles O22: bytes of words by index, and the words of bytes written to every KEY word in use. -/
theorem keyBytesAreTheWordsLittleEndian : Obligations.KeyBytesAreTheWordsLittleEndian := by
  intro s hp
  obtain ⟨hbytes, -, h16⟩ := keyWords_of_legal hp
  refine ⟨?_, fun k j hk => ?_, fun h hlen hl hinv => writeKeyWords_all hp hlen hl hinv⟩
  · rw [keyBytes, flatMap_wordBytes_length, List.length_take, Vector.length_toList, min_eq_left h16, hbytes]
  · rw [keyBytes, flatMap_wordBytes_getElem? _ _ _ j.isLt, List.getElem?_take, if_pos hk]
    simp

end Sys2Proof.Machine
end

section
/-! PROOFS. Every piece of state after a reset (10_state.md R45; 20_memory.md R79; 70_reset_and_hazards.md R230). -/

namespace Sys2Proof.Machine

open Sys2Proof

/-- One more cell of a draw is one more write, when it lies inside BUF (R79). -/
theorem Memory.ofCells_concat (n : Nat) (cells : List Host.Cell) (c : Host.Cell) :
    Memory.ofCells n (cells ++ [c]) =
      if c.1 < n then (Memory.ofCells n cells).write c.1 c.2 else Memory.ofCells n cells :=
  List.foldl_append ..

/-- A draw of the first `m` bytes of BUF reads as drawn. -/
theorem Memory.read_ofCells_range (f : Nat → Byte) {n m : Nat} (h : m ≤ n) {a : Nat} (ha : a < m) :
    (Memory.ofCells n ((List.range m).map fun a => (a, f a))).read a = f a := by
  induction m with
  | zero => omega
  | succ m ih =>
    rw [List.range_succ, List.map_append, List.map_singleton, Memory.ofCells_concat, if_pos (by exact h),
      Memory.read_write_of_wf (Memory.wf_ofCells _ _)]
    split
    · next he => rw [he]
    · exact ih (by omega) (by omega)

/-- With every mask 0 no readiness bit is 1 (R28). -/
theorem not_ready_of_masks_zero {s : State} (hp : s.params.Legal) (hiv : s.ivMask = 0) (hn : s.nonceMask = 0)
    (hk : s.keyMask = 0) : ¬ s.KeyLoaded ∧ ¬ s.IvValid ∧ ¬ s.NonceValid := by
  obtain ⟨-, h1, -⟩ := keyWords_of_legal hp
  have hpow : 2 ^ 1 ≤ 2 ^ s.params.keyWords := Nat.pow_le_pow_right (by decide) h1
  refine ⟨fun h => ?_, fun h => ?_, fun h => ?_⟩
  · have hzero : 0 = 2 ^ s.params.keyWords - 1 := (congrArg BitVec.toNat hk).symm.trans h
    omega
  · exact absurd (hiv.symm.trans h) (by decide)
  · exact absurd (hn.symm.trans h) (by decide)

/-- Settles O23: the fields of `applyReset`, with no readiness bit and the draw read back. -/
theorem resetSetsEveryPieceOfState : Obligations.ResetSetsEveryPieceOfState := by
  refine ⟨fun s rest d f hp hpend hd => ?_, rfl, rfl, by decide, rfl, rfl, rfl, rfl, rfl, rfl, rfl, rfl, rfl⟩
  obtain ⟨hkey, hiv, hnonce⟩ := not_ready_of_masks_zero (s := applyReset d { s with pending := rest }) hp rfl rfl rfl
  have hstatus : regRead .status (applyReset d { s with pending := rest }) = 0 := by
    rw [regRead, statusWord_eq, if_neg hkey, if_neg hiv, if_neg hnonce]
    simp
  have hbuf (a : Nat) (ha : a < s.params.memBytes) : (applyReset d { s with pending := rest }).buf.read a = f a := by
    rw [applyReset_buf, hd]
    exact Memory.read_ofCells_range f le_rfl ha
  exact ⟨_, step_perform hpend rfl nofun, rfl, rfl, rfl, rfl, rfl, hkey, hiv, hnonce, hstatus, rfl, rfl, rfl, rfl, rfl,
    rfl, rfl, rfl, rfl, rfl, rfl, rfl, rfl, hbuf, rfl, rfl, rfl⟩

end Sys2Proof.Machine
end

section
/-! PROOFS. Host assembly (30_encoding.md R98, R99). -/

namespace Sys2Proof.Machine

open Sys2Proof

/-- No mode name sets bit 8 of CTRL (R26, R99). -/
theorem writeCtrl_asmMode_keyLock (m : AsmMode) (s : State) : (writeCtrl m.value s).keyLock = s.keyLock := by
  have hbit : m.value.getLsbD 8 = false := by cases m <;> decide
  rw [writeCtrl_keyLock, hbit, Bool.or_false]

/-- Settles O60: the expansion is that of its parts in order, and a mode statement is one CTRL write. -/
theorem assemblerExpandsCbcEncAndKeepsKeyLock : Obligations.AssemblerExpandsCbcEncAndKeepsKeyLock := by
  refine ⟨fun p src len dst h hlen => ?_, fun p m evs hevs s hp => ?_⟩
  · have hiv : expandIv h = some (wrWords 0x040 4 h) := if_pos hlen
    simp only [expand, hiv]
    rfl
  · cases hevs
    exact ⟨_, step_writeReg hp rfl (by decide) (by decide), writeCtrl_asmMode_keyLock m _, rfl⟩

end Sys2Proof.Machine
end

section
/-! PROOFS. Host accesses to BUF and to the register space: which are taken, and the little-endian values they carry
(20_memory.md R63 to R65). -/

namespace Sys2Proof.Machine

open Sys2Proof

/-! ### Little-endian values -/

/-- One more byte at the end of a sequence weighs the most. -/
theorem leValue_concat (b : List Byte) (x : Byte) : leValue (b ++ [x]) = leValue b + 256 ^ b.length * x.toNat := by
  induction b with
  | nil => simp [leValue]
  | cons y b ih =>
    rw [List.cons_append, leValue, leValue, ih, List.length_cons, Nat.pow_succ']
    ring

/-- The little-endian value of a range of bytes as the sum R63 writes. -/
theorem leValue_map_range (f : Nat → Byte) (w : Nat) :
    leValue ((List.range w).map f) = ((List.range w).map fun j => (f j).toNat * 2 ^ (8 * j)).sum := by
  induction w with
  | zero => rfl
  | succ w ih =>
    rw [List.range_succ, List.map_append, List.map_append, List.sum_append, List.map_singleton, List.map_singleton,
      List.sum_singleton, leValue_concat, ih, List.length_map, List.length_range, Nat.pow_mul, Nat.mul_comm]

theorem byteOf_toNat (v : Word) (j : Nat) : (byteOf v j).toNat = v.toNat / 2 ^ (8 * j) % 256 := by
  rw [byteOf, BitVec.extractLsb'_toNat, Nat.shiftRight_eq_div_pow]

/-- The little-endian value of the bytes of a word from byte `k` on is that field of the word (R65). -/
theorem leValue_map_byteOf (v : Word) (k w : Nat) :
    leValue ((List.range w).map fun j => byteOf v (k + j)) = (v.extractLsb' (8 * k) (8 * w)).toNat := by
  rw [BitVec.extractLsb'_toNat, Nat.shiftRight_eq_div_pow]
  induction w with
  | zero => exact (Nat.mod_one _).symm
  | succ w ih =>
    rw [List.range_succ, List.map_append, List.map_singleton, leValue_concat, ih, List.length_map, List.length_range,
      byteOf_toNat, Nat.mul_add 8 k w, Nat.pow_add, ← Nat.div_div_eq_div_mul, Nat.mul_succ, Nat.pow_add 2 (8 * w) 8,
      Nat.mod_mul, Nat.pow_mul 2 8 w]

theorem wordBytes_getD (v : Word) {w j : Nat} (h : j < w) : (wordBytes w v).getD j 0 = v.extractLsb' (8 * j) 8 := by
  simp [wordBytes, List.getD_eq_getElem?_getD, h, byteOf]

/-! ### Accesses to BUF -/

/-- What a Host write leaves in BUF: the bytes of its value, and every other byte as it was (R63). -/
theorem read_bufWrite {s : State} (hwf : s.buf.wf = true) (w a : Nat) (v : Word) :
    (∀ j, j < w → (bufWrite w a v s).buf.read (a + j) = v.extractLsb' (8 * j) 8) ∧
    ∀ x, x < a ∨ a + w ≤ x → (bufWrite w a v s).buf.read x = s.buf.read x := by
  rw [bufWrite_buf]
  refine ⟨fun j hj => ?_, fun x hx => ?_⟩
  · rw [Memory.read_writeBytes hwf, wordBytes_length, if_pos (by omega), Nat.add_sub_cancel_left, wordBytes_getD v hj]
  · rw [Memory.read_writeBytes hwf, wordBytes_length, if_neg (by omega)]

/-- A Host read inside the range of a Host write returns that field of what was written (R65). -/
theorem bufRead_bufWrite {s : State} (hwf : s.buf.wf = true) (a : Nat) (v : Word) {n k w : Nat} (h : k + w ≤ n) :
    bufRead w (a + k) (bufWrite n a v s) = (v.extractLsb' (8 * k) (8 * w)).setWidth 32 := by
  have hbytes : (bufWrite n a v s).buf.readBytes (a + k) w = (List.range w).map fun j => byteOf v (k + j) := by
    refine List.map_congr_left fun j hj => ?_
    have hlt := List.mem_range.1 hj
    rw [Nat.add_assoc]
    exact (read_bufWrite hwf n a v).1 _ (by omega)
  rw [bufRead, hbytes, leValue_map_byteOf, BitVec.ofNat_toNat]

/-- Settles O25: each narrow read is a read of a field inside the range of the wide write. -/
theorem narrowReadsSeeTheBytesOfWideWrites : Obligations.NarrowReadsSeeTheBytesOfWideWrites := by
  intro s a v ⟨_, ⟨hwf, _⟩, _⟩ _ _
  refine ⟨fun j => ?_, ?_, ?_, ?_⟩
  · exact bufRead_bufWrite hwf a v (by omega)
  · exact bufRead_bufWrite hwf a v (k := 0) (by omega)
  · exact bufRead_bufWrite hwf a v (by omega)
  · refine (bufRead_bufWrite hwf a v (k := 0) (by omega)).trans ?_
    simp

/-- The Host accesses to BUF that BCME takes (R63). -/
theorem bufAccessTaken_iff {p : Params} {w a : Nat} :
    bufAccessTaken p w a = true ↔ (w = 1 ∨ w = 2 ∨ w = 4) ∧ a % w = 0 ∧ a + w ≤ p.memBytes := by
  simp [bufAccessTaken, or_assoc, and_assoc]

theorem step_writeBuf {s : State} {rest : List HostEvent} {w a : Nat} {v : Word}
    (hp : s.pending = .buf a (.write w v) :: rest) (ht : bufAccessTaken s.params w a = true) :
    step s = .next (bufWrite w a v { s with pending := rest }) :=
  step_perform (a := .writeBuf w a v) hp (if_pos ht) nofun

theorem step_readBuf {s : State} {rest : List HostEvent} {w a : Nat}
    (hp : s.pending = .buf a (.read w) :: rest) (ht : bufAccessTaken s.params w a = true) :
    step s = .next (deliver (bufRead w a s) { s with pending := rest }) :=
  step_perform (a := .readBuf w a) hp (if_pos ht) nofun

/-- Settles O24: BCME takes the accesses of R63 and no other, and their values are the sums and bytes of R63. -/
theorem hostBufAccessesAreLittleEndianOrRefused : Obligations.HostBufAccessesAreLittleEndianOrRefused := by
  intro s rest w a v ⟨_, ⟨hwf, _⟩, _⟩
  rw [← bufAccessTaken_iff]
  refine ⟨fun ht => ⟨fun hp => ?_, fun hp => ?_⟩, fun ht => ⟨fun hp => ?_, fun hp => ?_⟩⟩
  · exact ⟨_, step_writeBuf hp ht, rfl, read_bufWrite (s := { s with pending := rest }) hwf w a v⟩
  · rw [step_readBuf hp ht, bufRead, Memory.readBytes, leValue_map_range]
    rfl
  · exact step_refused hp (if_neg ht)
  · exact step_refused hp (if_neg ht)

/-! ### Accesses to the register space -/

/-- The width of a Host access in bytes. -/
def Access.width : Access → Nat
  | .read w => w
  | .write w _ => w

/-- An access to the register space that is not a word at an aligned offset below 0x100 is not taken (R64). -/
theorem takeReg_refused {o : Nat} {acc : Access} (h : acc.width ≠ 4 ∨ o % 4 ≠ 0 ∨ 0x100 ≤ o) :
    takeReg o acc = .error .registerAccessNotTaken := by
  unfold takeReg
  split
  · next ho =>
    have hw : acc.width ≠ 4 := h.resolve_right (by omega)
    split
    · exact absurd rfl hw
    · exact absurd rfl hw
    · rfl
  · rfl

theorem runCommand_next (v : Word) (s : State) : ∃ t, runCommand v s = .next t := by
  cases hd : decode v with
  | ok i => exact ⟨_, (runCommand_of_decode hd s).trans (exec_eq i s)⟩
  | error e => exact ⟨_, runCommand_of_illegal hd s⟩

/-- Settles O26: a word access is a read, a command or a register write; any other access is not taken. -/
theorem registerAccessesAreWordsOrRefused : Obligations.RegisterAccessesAreWordsOrRefused := by
  intro s rest w o v hp
  refine ⟨?_, fun h => ?_⟩
  · rintro ⟨rfl, h4, hlt⟩
    rcases hp with hp | hp
    · exact ⟨_, step_readReg hp h4 hlt⟩
    · by_cases hc : o = cmdOffset
      · subst hc
        rw [step_writeCmd hp]
        exact runCommand_next v _
      · exact ⟨_, step_writeReg hp h4 hlt hc⟩
  · rcases hp with hp | hp
    · exact step_refused hp (takeReg_refused h)
    · exact step_refused hp (takeReg_refused h)

end Sys2Proof.Machine
end

section
/-! PROOFS. The CTR counter block and keystream, byte by byte (20_memory.md R66; 42_mode_engine.md R165). -/

namespace Sys2Proof.Machine

open Sys2Proof

theorem le64_getD (x : Nat) {j : Nat} (h : j < 8) : (le64 x).getD j 0 = BitVec.ofNat 8 (x / 2 ^ (8 * j)) := by
  simp [le64, List.getD_eq_getElem?_getD, h]

/-- Bytes 0 to 7 of a counter block are those of the nonce. -/
theorem counterBlock_getElem_nonce (n i : Nat) {j : Nat} (h : j < 8) :
    (counterBlock n i)[j] = BitVec.ofNat 8 (n / 2 ^ (8 * j)) := by
  rw [counterBlock, blockOfBytes_getElem, List.getD_append _ _ _ _ (by simpa using h), le64_getD _ h]

/-- Bytes 8 to 15 of a counter block are those of the counter. -/
theorem counterBlock_getElem_counter (n i : Nat) {j : Nat} (h : j < 8) :
    (counterBlock n i)[8 + j] = BitVec.ofNat 8 (i % 2 ^ 64 / 2 ^ (8 * j)) := by
  rw [counterBlock, blockOfBytes_getElem, List.getD_append_right _ _ _ _ (by simp), le64_length,
    Nat.add_sub_cancel_left, le64_getD _ h]

/-- The low four bytes of NONCEval are those of NONCE_LO (R36). -/
theorem nonceVal_byte_lo (s : State) {j : Nat} (h : j < 4) :
    BitVec.ofNat 8 (nonceVal s / 2 ^ (8 * j)) = byteOf s.nonceLo j := by
  apply BitVec.eq_of_toNat_eq
  rw [byteOf_toNat, BitVec.toNat_ofNat, nonceVal]
  interval_cases j <;> omega

/-- The high four bytes of NONCEval are those of NONCE_HI (R36). -/
theorem nonceVal_byte_hi (s : State) (j : Nat) :
    BitVec.ofNat 8 (nonceVal s / 2 ^ (8 * (4 + j))) = byteOf s.nonceHi j := by
  have hhi : nonceVal s / 2 ^ 32 = s.nonceHi.toNat := by
    have := s.nonceLo.isLt
    rw [nonceVal]
    omega
  apply BitVec.eq_of_toNat_eq
  rw [byteOf_toNat, BitVec.toNat_ofNat, Nat.mul_add, Nat.pow_add, ← Nat.div_div_eq_div_mul, hhi]

/-- Settles O27: the bytes of the two halves, and the keystream begins with the block of counter 0. -/
theorem counterBlockIsNonceThenCounterLittleEndian : Obligations.CounterBlockIsNonceThenCounterLittleEndian := by
  refine ⟨fun s i => ⟨fun j => ?_, fun j => ?_, fun j => ?_⟩, fun p k nonce m => ?_⟩
  · rw [counterBlock_getElem_nonce _ _ (by omega), nonceVal_byte_lo s j.isLt, byteOf]
  · rw [counterBlock_getElem_nonce _ _ (by omega), nonceVal_byte_hi, byteOf]
  · rw [counterBlock_getElem_counter _ _ j.isLt]
    exact BitVec.eq_of_toNat_eq (by simp)
  · rw [keystream, List.range_succ_eq_map, List.map_cons, joinBlocks_cons, List.take_left' (blockBytes_length _)]

/-- Byte `j` of an exclusive-or. -/
theorem xorBytes_getD {a b : List Byte} {j : Nat} (ha : j < a.length) (hb : j < b.length) :
    (xorBytes a b).getD j 0 = a.getD j 0 ^^^ b.getD j 0 := by
  rw [List.getD_eq_getElem _ _ (by simp [ha, hb]), xorBytes_getElem, List.getD_eq_getElem _ _ ha,
    List.getD_eq_getElem _ _ hb]

/-- Byte `j` of the keystream is byte `j mod 16` of `E` of counter block `j / 16` (R165). -/
theorem keystream_getD (p : Params) (k : List Byte) (nonce : Nat) {m j : Nat} (h : j / 16 < m) :
    (keystream p k nonce m).getD j 0 = (blockBytes (encBlock p k (counterBlock nonce (j / 16)))).getD (j % 16) 0 := by
  rw [keystream, joinBlocks_getD _ _ (by simpa using h)]
  simp

/-- Settles O49: the transform XORs the input with as many bytes of the keystream. -/
theorem ctrXorsTheKeystream : Obligations.CtrXorsTheKeystream := by
  refine fun p k nonce b => ⟨ctrTransform_length p k nonce b, fun j hj => ?_⟩
  have htake : ((keystream p k nonce ((b.length + 15) / 16)).take b.length).getD j 0 =
      (keystream p k nonce ((b.length + 15) / 16)).getD j 0 := by
    rw [List.getD_eq_getElem?_getD, List.getElem?_take_of_lt hj, List.getD_eq_getElem?_getD]
  have hlong : j < ((keystream p k nonce ((b.length + 15) / 16)).take b.length).length := by
    rw [List.length_take, keystream_length]
    omega
  rw [ctrTransform, xorBytes_getD hj hlong, htake, keystream_getD p k nonce (by omega)]

end Sys2Proof.Machine
end

section
/-! PROOFS. What a command reads and writes of BUF (20_memory.md R69, R70), and XOR (40_primitives.md R121). -/

namespace Sys2Proof.Machine

open Sys2Proof

/-- XOR in range with operands of one length passes its checks, in any mode (R121, R200). -/
theorem checks_pass_xor {s : State} (hsrc : s.SrcFits) (haux : s.AuxFits) (hdst : s.DstFits s.len.toNat)
    (hlen : s.len = s.auxLen) : firstFailure (checks .xor s) = none :=
  checks_pass_iff.2 ⟨rfl, rfl, hsrc, fun _ => haux, fun _ => hdst, fun _ => hlen, nofun, nofun, nofun, nofun⟩

/-- Settles O35: the output has LEN bytes, each the exclusive-or of the operands' bytes as they stood. -/
theorem xorWritesTheExclusiveOr : Obligations.XorWritesTheExclusiveOr := by
  intro s ⟨_, ⟨hwf, _⟩, _⟩ hsrc haux hdst hlen
  obtain ⟨t, ht, hts, hout, hframe⟩ := exec_success hwf (checks_pass_xor hsrc haux hdst hlen) (i := .xor) rfl
  have hl : (xorBytes (srcBytes s) (auxBytes s)).length = s.len.toNat := by simp [← hlen]
  rw [hl] at hts hout hframe
  rw [BitVec.ofNat_toNat, BitVec.setWidth_eq] at hts
  refine ⟨t, ht, hts, fun j hj => ?_, hframe⟩
  calc t.buf.read (s.dst.toNat + j) = (t.buf.readBytes s.dst.toNat s.len.toNat).getD j 0 :=
        (Memory.readBytes_getD _ _ _ _ hj).symm
    _ = (srcBytes s).getD j 0 ^^^ (auxBytes s).getD j 0 := by
        rw [hout, xorBytes_getD (by simpa using hj) (by simpa [← hlen] using hj)]
    _ = s.buf.read (s.src.toNat + j) ^^^ s.buf.read (s.aux.toNat + j) := by
        rw [srcBytes, auxBytes, Memory.readBytes_getD _ _ _ _ hj, Memory.readBytes_getD _ _ _ _ (hlen ▸ hj)]

/-! ### What a command writes -/

/-- OUT_LEN holds the length of what a command that passed its checks writes: it lies inside BUF (R204, R210). -/
theorem outLen_toNat_of_passed {i : Instr} {s : State} {out : List Byte} {p : Bool} (hmem : s.params.memBytes ≤ 2 ^ 31)
    (hc : firstFailure (checks i s) = none) (hb : bodyOf i s = .complete out p) :
    (BitVec.ofNat 32 out.length).toNat = out.length := by
  rw [BitVec.toNat_ofNat]
  rcases bodyOf_output_fits hc hb with rfl | hfit
  · rfl
  · have hfit : s.dst.toNat + out.length ≤ s.params.memBytes := hfit
    omega

/-- Every byte outside the output stays, whatever the outcome (R70). -/
theorem execute_buf_frame {i : Instr} {s : State} (hwf : s.buf.wf = true) (hmem : s.params.memBytes ≤ 2 ^ 31) {a : Nat}
    (ha : a < s.dst.toNat ∨ s.dst.toNat + (execute i (bodyOf i) s).outLen.toNat ≤ a) :
    (execute i (bodyOf i) s).buf.read a = s.buf.read a := by
  rcases execute_cases i (bodyOf i) s with ⟨e, -, h⟩ | ⟨out, p, hc, hb, h⟩ | ⟨-, -, h⟩ <;> rw [h] at ha ⊢
  · rfl
  · rw [complete_outLen, outLen_toNat_of_passed hmem hc hb] at ha
    exact (complete_writes (s := consume i s) hwf out p).2 a ha
  · rfl

/-- An error, or CHECK, writes no byte (R70, R174, R209). -/
theorem execute_buf_of_noOutput {i : Instr} {s : State} (h : (execute i (bodyOf i) s).err = true ∨ i = .check) :
    (execute i (bodyOf i) s).buf = s.buf := by
  rcases execute_cases i (bodyOf i) s with ⟨e, -, ht⟩ | ⟨out, p, -, hb, ht⟩ | ⟨-, -, ht⟩ <;> rw [ht] at h ⊢
  · rfl
  · rcases h with he | rfl
    · cases he
    · cases hb
      rfl
  · rfl

/-! ### What a command reads -/

/-- A body is a function of its input bytes, mode, parameters, key, IV and nonce; XOR's also of its second operand, and
a block command's of its input block (R69). -/
theorem bodyOf_congr {i : Instr} {s v : State} (hk : s.SameKeying v) (hsrc : srcBytes v = srcBytes s)
    (haux : i = .xor → auxBytes v = auxBytes s) (hblock : oneBlock i = true → srcBlock v = srcBlock s) :
    bodyOf i v = bodyOf i s := by
  obtain ⟨hmode, hparams, hkey, hiv, hnonce⟩ := hk
  have hctr : ctrBody v = ctrBody s := by simp only [ctrBody, hparams, hkey, hnonce, hsrc]
  have hdec : blockDecrypt v = blockDecrypt s := by simp only [blockDecrypt, hmode, hparams, hkey, hiv, hsrc]
  cases i with
  | pad bs => simp only [bodyOf, padBody, hsrc]
  | unpad bs => simp only [bodyOf, unpadBody, hsrc]
  | xor => simp only [bodyOf, xorBody, hsrc, haux rfl]
  | blkEnc => rw [blkEnc_runsOnBlock, blkEnc_runsOnBlock, hparams, hkey, hblock rfl]
  | blkDec => rw [blkDec_runsOnBlock, blkDec_runsOnBlock, hparams, hkey, hblock rfl]
  | enc => simp only [bodyOf, encBody, hctr, hmode, hparams, hkey, hiv, hsrc]
  | dec => simp only [bodyOf, decBody, hctr, hdec, hmode]
  | check => simp only [bodyOf, checkBody, hdec]
  | ctrXcrypt => exact hctr

/-- The state with another BUF. -/
abbrev State.withBuf (s : State) (b : Memory) : State := { s with buf := b }

/-- `b` agrees with BUF on the ranges that the command may read (R70). -/
abbrev State.SameInputs (s : State) (i : Instr) (b : Memory) : Prop :=
  (∀ a, s.src.toNat ≤ a → a < s.src.toNat + s.len.toNat → b.read a = s.buf.read a) ∧
  (i = .xor → ∀ a, s.aux.toNat ≤ a → a < s.aux.toNat + s.auxLen.toNat → b.read a = s.buf.read a)

/-- A command that passes its checks has the same result on any BUF with the same inputs. -/
theorem bodyOf_withBuf {i : Instr} {s : State} {b : Memory} (hc : firstFailure (checks i s) = none)
    (h : s.SameInputs i b) : bodyOf i (s.withBuf b) = bodyOf i s := by
  obtain ⟨hsrc, haux⟩ := h
  obtain ⟨-, -, -, -, -, -, hlen, -⟩ := checks_pass_iff.1 hc
  have hbytes : b.readBytes s.src.toNat s.len.toNat = s.buf.readBytes s.src.toNat s.len.toNat :=
    Memory.readBytes_congr hsrc
  refine bodyOf_congr ⟨rfl, rfl, rfl, rfl, rfl⟩ hbytes (fun hi => Memory.readBytes_congr (haux hi)) fun hi => ?_
  rw [hlen hi] at hbytes
  exact congrArg blockOfBytes hbytes

/-- Two end states of one command that are equal but for BUF, and in BUF agree on the output (R70). -/
abbrev State.SameOutcome (t t' : State) : Prop :=
  t' = t.withBuf t'.buf ∧
    ∀ a, t.dst.toNat ≤ a → a < t.dst.toNat + t.outLen.toNat → t'.buf.read a = t.buf.read a

theorem raiseError_sameOutcome (e : ErrorKind) (s : State) (b : Memory) :
    (raiseError e s).SameOutcome (raiseError e (s.withBuf b)) :=
  ⟨rfl, fun _ hlo hhi => absurd hhi (Nat.not_lt.2 hlo)⟩

theorem complete_sameOutcome (out : List Byte) (p : Bool) {s : State} {b : Memory} (hwf : s.buf.wf = true)
    (hb : b.wf = true) : (complete out p s).SameOutcome (complete out p (s.withBuf b)) := by
  refine ⟨rfl, fun a hlo hhi => ?_⟩
  have hlen : (BitVec.ofNat 32 out.length).toNat ≤ out.length := Nat.mod_le ..
  rw [complete_dst] at hlo hhi
  rw [complete_outLen] at hhi
  have hin : s.dst.toNat ≤ a ∧ a < s.dst.toNat + out.length := by omega
  rw [complete_buf, complete_buf, Memory.read_writeBytes hb, Memory.read_writeBytes hwf, if_pos hin, if_pos hin]

/-- On a BUF with the same inputs a command has the same outcome: its checks do not read BUF (R70). -/
theorem execute_sameOutcome {i : Instr} {s : State} {b : Memory} (hwf : s.buf.wf = true) (hb : b.wf = true)
    (h : s.SameInputs i b) :
    (execute i (bodyOf i) s).SameOutcome (execute i (bodyOf i) (s.withBuf b)) := by
  have hchecks : checks i (s.withBuf b) = checks i s := rfl
  simp only [execute, hchecks]
  cases hc : firstFailure (checks i s) with
  | some e => exact raiseError_sameOutcome e s b
  | none =>
    rw [bodyOf_withBuf hc h]
    cases bodyOf i s with
    | complete out p => exact complete_sameOutcome out p (s := consume i s) hwf hb
    | invalidPadding => exact raiseError_sameOutcome _ (consume i s) b

/-- Settles O30: the frame of BUF, and the same outcome on every BUF with the same inputs. -/
theorem commandsTouchOnlyTheirRanges : Obligations.CommandsTouchOnlyTheirRanges := by
  refine ⟨fun i s t hinv h => ?_, fun i s t b hinv hb hsrc haux h => ?_⟩
  · obtain ⟨⟨-, -, -, -, -, hmem⟩, ⟨hwf, -⟩, -⟩ := hinv
    rw [exec_next] at h
    subst h
    exact ⟨fun a => execute_buf_frame hwf hmem, execute_buf_of_noOutput⟩
  · obtain ⟨-, ⟨hwf, -⟩, -⟩ := hinv
    rw [exec_next] at h
    subst h
    obtain ⟨-, -, -, -, hdst, -⟩ := execute_keepsRegisters i s
    obtain ⟨heq, hout⟩ := execute_sameOutcome hwf hb ⟨hsrc, haux⟩
    rw [hdst] at hout
    exact ⟨_, exec_eq i _, heq, hout⟩

end Sys2Proof.Machine
end

section
/-! PROOFS. The command word: its fields, decoding as the inverse of encoding, and the legal words (30_encoding.md R90
to R97). -/

namespace Sys2Proof

/-! ### The fields of a word (R90) -/

theorem Instr.opcode_lt (i : Instr) : i.opcode < 16 := by
  cases i <;> simp [Instr.opcode]

/-- The word of a command as a sum: its two fields do not overlap (R96). -/
theorem encode_toNat (i : Instr) : (encode i).toNat = i.blockSize.toNat * 2 ^ 8 + i.opcode := by
  have hop := i.opcode_lt
  have hbs := i.blockSize.isLt
  have hshift : (i.blockSize.setWidth 32 <<< 8).toNat = i.blockSize.toNat <<< 8 := by
    rw [BitVec.toNat_shiftLeft, BitVec.toNat_setWidth, Nat.shiftLeft_eq, Nat.shiftLeft_eq]
    omega
  rw [encode, BitVec.toNat_or, hshift, BitVec.toNat_ofNat, Nat.mod_eq_of_lt (by omega),
    ← Nat.shiftLeft_add_eq_or_of_lt (by omega), Nat.shiftLeft_eq]

/-- A word is the word of a command exactly when its fields are those of the command. -/
theorem eq_encode_iff {v : Word} {i : Instr} : v = encode i ↔
    rsv1Field v = 0 ∧ rsv0Field v = 0 ∧ i.opcode = (opField v).toNat ∧ i.blockSize = bsField v := by
  have hop := i.opcode_lt
  have hbs := i.blockSize.isLt
  have hv := v.isLt
  simp only [← BitVec.toNat_inj, encode_toNat, rsv1Field, rsv0Field, opField, bsField, BitVec.extractLsb'_toNat,
    Nat.shiftRight_eq_div_pow, BitVec.ofNat_eq_ofNat, BitVec.toNat_ofNat]
  omega

/-! ### Decoding is the inverse of encoding (R92, R93, R96) -/

@[simp] theorem Instr.wellFormed_pad {bs : BitVec 8} : (Instr.pad bs).WellFormed ↔ bs ≠ 0 := bne_iff_ne

@[simp] theorem Instr.wellFormed_unpad {bs : BitVec 8} : (Instr.unpad bs).WellFormed ↔ bs ≠ 0 := bne_iff_ne

theorem withBlockSize_eq_ok {bs : BitVec 8} {mk : BitVec 8 → Instr} {i : Instr} :
    withBlockSize bs mk = .ok i ↔ bs ≠ 0 ∧ mk bs = i := by
  unfold withBlockSize
  split
  · next h => exact ⟨nofun, fun ⟨hne, _⟩ => absurd h hne⟩
  · next h => rw [Except.ok.injEq, and_iff_right h]

theorem withoutBlockSize_eq_ok {bs : BitVec 8} {j i : Instr} :
    withoutBlockSize bs j = .ok i ↔ bs = 0 ∧ j = i := by
  unfold withoutBlockSize
  split
  · next h => rw [Except.ok.injEq, and_iff_right h]
  · next h => exact ⟨nofun, fun ⟨h0, _⟩ => absurd h0 h⟩

/-- The opcode map gives a well-formed command back from its own two fields. -/
theorem decodeOp_opcode_blockSize {i : Instr} (h : i.WellFormed) : decodeOp i.opcode i.blockSize = .ok i := by
  cases i with
  | pad bs => exact withBlockSize_eq_ok.2 ⟨Instr.wellFormed_pad.1 h, rfl⟩
  | unpad bs => exact withBlockSize_eq_ok.2 ⟨Instr.wellFormed_unpad.1 h, rfl⟩
  | xor | blkEnc | blkDec | enc | dec | check | ctrXcrypt => rfl

/-- The opcode map gives a well-formed command that has the fields it was read from. -/
theorem fields_of_decodeOp {op : Nat} {bs : BitVec 8} {i : Instr} (h : decodeOp op bs = .ok i) :
    i.WellFormed ∧ i.opcode = op ∧ i.blockSize = bs := by
  unfold decodeOp at h
  split at h
  case h_1 =>
    obtain ⟨hbs, rfl⟩ := withBlockSize_eq_ok.1 h
    exact ⟨Instr.wellFormed_pad.2 hbs, rfl, rfl⟩
  case h_2 =>
    obtain ⟨hbs, rfl⟩ := withBlockSize_eq_ok.1 h
    exact ⟨Instr.wellFormed_unpad.2 hbs, rfl, rfl⟩
  case h_10 => cases h
  all_goals
    obtain ⟨rfl, rfl⟩ := withoutBlockSize_eq_ok.1 h
    exact ⟨rfl, rfl, rfl⟩

theorem decodeOp_eq_ok {op : Nat} {bs : BitVec 8} {i : Instr} :
    decodeOp op bs = .ok i ↔ i.WellFormed ∧ i.opcode = op ∧ i.blockSize = bs := by
  refine ⟨fields_of_decodeOp, ?_⟩
  rintro ⟨hwf, rfl, rfl⟩
  exact decodeOp_opcode_blockSize hwf

/-- What decodes to a command is the word of that command, and no other word does (R96). -/
theorem decode_eq_ok {v : Word} {i : Instr} : decode v = .ok i ↔ i.WellFormed ∧ v = encode i := by
  rw [eq_encode_iff, decode]
  split
  · next hr => obtain ⟨h1, h0⟩ := hr; simp only [decodeOp_eq_ok, h1, h0, true_and]
  · next hr => exact ⟨nofun, fun ⟨_, h1, h0, _⟩ => absurd ⟨h1, h0⟩ hr⟩

/-- Settles O2: the word of a command has the command's fields, and the opcode map gives it back from them. -/
theorem decodeOfEncodeIsTheCommand : Obligations.DecodeOfEncodeIsTheCommand :=
  fun _ hwf => decode_eq_ok.2 ⟨hwf, rfl⟩

/-! ### The legal words (R94) -/

/-- `Legal(v)` as the list of its conditions. -/
theorem legal_iff {v : Word} : legal v = true ↔
    rsv1Field v = 0 ∧ rsv0Field v = 0 ∧ (1 ≤ (opField v).toNat ∧ (opField v).toNat ≤ 9) ∧
    ((opField v = 1 ∨ opField v = 2) → bsField v ≠ 0) ∧ (¬ (opField v = 1 ∨ opField v = 2) → bsField v = 0) := by
  simp only [legal, Bool.and_eq_true, Bool.or_eq_true, beq_iff_eq, decide_eq_true_eq, and_assoc]
  split
  · next h => simp only [h, forall_const, not_true_eq_false, IsEmpty.forall_iff, and_true, bne_iff_ne]
  · next h => simp only [h, forall_const, not_false_eq_true, IsEmpty.forall_iff, true_and, beq_iff_eq]

theorem legal_encode {i : Instr} (h : i.WellFormed) : legal (encode i) = true := by
  cases i with
  | pad bs => exact Laws.EncodesLegally.pad bs h
  | unpad bs => exact Laws.EncodesLegally.unpad bs h
  | xor => exact Laws.EncodesLegally.xor h
  | blkEnc => exact Laws.EncodesLegally.blkEnc h
  | blkDec => exact Laws.EncodesLegally.blkDec h
  | enc => exact Laws.EncodesLegally.enc h
  | dec => exact Laws.EncodesLegally.dec h
  | check => exact Laws.EncodesLegally.check h
  | ctrXcrypt => exact Laws.EncodesLegally.ctrXcrypt h

/-- The opcode map has a row for each OP in 1..9 with a BS that the row allows (R92, R93). -/
theorem exists_decodeOp {op : BitVec 4} {bs : BitVec 8} (h : 1 ≤ op.toNat ∧ op.toNat ≤ 9)
    (hpad : op = 1 ∨ op = 2 → bs ≠ 0) (hother : ¬ (op = 1 ∨ op = 2) → bs = 0) :
    ∃ i, decodeOp op.toNat bs = .ok i := by
  by_cases hop : op = 1 ∨ op = 2
  · obtain rfl | rfl := hop
    · exact ⟨.pad bs, withBlockSize_eq_ok.2 ⟨hpad (.inl rfl), rfl⟩⟩
    · exact ⟨.unpad bs, withBlockSize_eq_ok.2 ⟨hpad (.inr rfl), rfl⟩⟩
  · have rows : ∀ op : BitVec 4, 1 ≤ op.toNat ∧ op.toNat ≤ 9 → ¬ (op = 1 ∨ op = 2) →
        (decodeOp op.toNat 0).isOk = true := by decide
    have hok := rows op h hop
    rw [hother hop]
    cases hd : decodeOp op.toNat 0 with
    | ok i => exact ⟨i, rfl⟩
    | error e => rw [hd] at hok; cases hok

/-- A word decodes to a command exactly when it is legal. -/
theorem exists_decode_iff_legal {v : Word} : (∃ i, decode v = .ok i) ↔ legal v = true := by
  constructor
  · rintro ⟨i, hi⟩
    obtain ⟨hwf, rfl⟩ := decode_eq_ok.1 hi
    exact legal_encode hwf
  · intro h
    obtain ⟨h1, h0, hop, hpad, hother⟩ := legal_iff.1 h
    rw [decode, if_pos ⟨h1, h0⟩]
    exact exists_decodeOp hop hpad hother

theorem exists_decode_error_iff {v : Word} : (∃ e, decode v = .error e) ↔ ∀ i, decode v ≠ .ok i := by
  cases decode v <;> simp

/-- Settles O1: legality read off the fields, and the error completion of a word that does not decode. -/
theorem wordIsLegalExactlyAsR94Says : Obligations.WordIsLegalExactlyAsR94Says := by
  refine ⟨fun v => exists_decode_iff_legal.trans legal_iff, fun s rest v hp hv => ?_⟩
  obtain ⟨e, he⟩ := exists_decode_error_iff.2 hv
  rw [Machine.step_writeCmd hp, Machine.runCommand_of_illegal he]

/-- Settles O3: each clause from decoding being the inverse of encoding, the first two by legality. -/
theorem eachCommandHasExactlyOneWord : Obligations.EachCommandHasExactlyOneWord := by
  refine ⟨fun v hv => ?_, fun v hv => ?_, fun v w i hi hj => ?_, fun i hwf v => ?_⟩
  · refine exists_decode_error_iff.2 fun i hi => ?_
    rw [exists_decode_iff_legal.1 ⟨i, hi⟩] at hv
    cases hv
  · obtain ⟨i, hi⟩ := exists_decode_iff_legal.2 hv
    obtain ⟨hwf, hword⟩ := decode_eq_ok.1 hi
    obtain ⟨-, -, hop, hbs⟩ := eq_encode_iff.1 hword
    exact ⟨i, hi, hwf, hop, hbs⟩
  · exact (decode_eq_ok.1 hi).2.trans (decode_eq_ok.1 hj).2.symm
  · exact decode_eq_ok.trans (and_iff_right hwf)

/-- Settles O5: each sample word evaluated. -/
theorem sampleWordsDecode : Obligations.SampleWordsDecode := by
  unfold Obligations.SampleWordsDecode
  decide

/-! ### The list of the legal words (R97) -/

/-- The words with OP `op` and BS 1 to 255, in ascending order (R97). -/
def blockSizeWords (op : Nat) : List Word := (List.range 255).map fun b => BitVec.ofNat 32 ((b + 1) * 256 + op)

/-- The seven commands without a block size, in the order of their OP (R92). -/
def fixedCommands : List Instr := [.xor, .blkEnc, .blkDec, .enc, .dec, .check, .ctrXcrypt]

theorem legalWords_eq : legalWords = blockSizeWords 1 ++ blockSizeWords 2 ++ fixedCommands.map encode := rfl

/-- The words listed for a command with a block size are the words of that command with BS other than 0. -/
theorem mem_blockSizeWords {mk : BitVec 8 → Instr} {op : Nat} (hop : ∀ bs, (mk bs).opcode = op)
    (hbs : ∀ bs, (mk bs).blockSize = bs) {v : Word} :
    v ∈ blockSizeWords op ↔ ∃ bs, bs ≠ 0 ∧ v = encode (mk bs) := by
  have hlt : op < 16 := hop 0 ▸ (mk 0).opcode_lt
  have hword (bs : BitVec 8) : (encode (mk bs)).toNat = bs.toNat * 2 ^ 8 + op := by rw [encode_toNat, hop, hbs]
  simp only [blockSizeWords, List.mem_map, List.mem_range]
  constructor
  · rintro ⟨b, hb, rfl⟩
    refine ⟨BitVec.ofNat 8 (b + 1), ?_, BitVec.eq_of_toNat_eq ?_⟩
    · simp only [ne_eq, ← BitVec.toNat_inj, BitVec.ofNat_eq_ofNat, BitVec.toNat_ofNat]
      omega
    · rw [hword, BitVec.toNat_ofNat, BitVec.toNat_ofNat]
      omega
  · rintro ⟨bs, hne, rfl⟩
    have hpos : 0 < bs.toNat := Nat.pos_of_ne_zero fun h => hne (BitVec.eq_of_toNat_eq h)
    have hmax := bs.isLt
    refine ⟨bs.toNat - 1, by omega, BitVec.eq_of_toNat_eq ?_⟩
    rw [hword, BitVec.toNat_ofNat]
    omega

/-- A well-formed command is a PAD or an UNPAD with BS other than 0, or one of the other seven (R93). -/
theorem Instr.wellFormed_iff {i : Instr} :
    i.WellFormed ↔ (∃ bs, bs ≠ 0 ∧ i = .pad bs) ∨ (∃ bs, bs ≠ 0 ∧ i = .unpad bs) ∨ i ∈ fixedCommands := by
  cases i with
  | pad bs => simp [fixedCommands]
  | unpad bs => simp [fixedCommands]
  | xor | blkEnc | blkDec | enc | dec | check | ctrXcrypt => exact ⟨fun _ => .inr (.inr (by decide)), fun _ => rfl⟩

/-- The list of R97 holds the words of the well-formed commands. -/
theorem mem_legalWords {v : Word} : v ∈ legalWords ↔ ∃ i, i.WellFormed ∧ v = encode i := by
  rw [legalWords_eq, List.mem_append, List.mem_append,
    mem_blockSizeWords (mk := .pad) (fun _ => rfl) (fun _ => rfl),
    mem_blockSizeWords (mk := .unpad) (fun _ => rfl) (fun _ => rfl), List.mem_map]
  constructor
  · rintro ((⟨bs, hbs, rfl⟩ | ⟨bs, hbs, rfl⟩) | ⟨i, hi, rfl⟩)
    · exact ⟨_, Instr.wellFormed_iff.2 (.inl ⟨bs, hbs, rfl⟩), rfl⟩
    · exact ⟨_, Instr.wellFormed_iff.2 (.inr (.inl ⟨bs, hbs, rfl⟩)), rfl⟩
    · exact ⟨i, Instr.wellFormed_iff.2 (.inr (.inr hi)), rfl⟩
  · rintro ⟨i, hwf, rfl⟩
    obtain ⟨bs, hbs, rfl⟩ | ⟨bs, hbs, rfl⟩ | hi := Instr.wellFormed_iff.1 hwf
    · exact .inl (.inl ⟨bs, hbs, rfl⟩)
    · exact .inl (.inr ⟨bs, hbs, rfl⟩)
    · exact .inr ⟨i, hi, rfl⟩

theorem blockSizeWords_nodup (op : Nat) : (blockSizeWords op).Nodup := by
  refine List.Nodup.map_on (fun a ha b hb heq => ?_) List.nodup_range
  rw [List.mem_range] at ha hb
  have heq := congrArg BitVec.toNat heq
  rw [BitVec.toNat_ofNat, BitVec.toNat_ofNat] at heq
  omega

/-- The words listed for one OP have that OP in their low byte. -/
theorem toNat_mod_of_mem_blockSizeWords {op : Nat} (h : op < 256) {v : Word} (hv : v ∈ blockSizeWords op) :
    v.toNat % 256 = op := by
  obtain ⟨b, -, rfl⟩ := List.mem_map.1 hv
  rw [BitVec.toNat_ofNat]
  omega

/-- No word is listed twice: within a part the BS differs, and between the parts the OP does. -/
theorem legalWords_nodup : legalWords.Nodup := by
  have hfixed : ∀ i ∈ fixedCommands, 3 ≤ (encode i).toNat % 256 := by decide
  rw [legalWords_eq, List.nodup_append', List.nodup_append']
  refine ⟨⟨blockSizeWords_nodup 1, blockSizeWords_nodup 2, fun v h1 h2 => ?_⟩, by decide,
    fun v hleft hright => ?_⟩
  · have h1 := toNat_mod_of_mem_blockSizeWords (by decide) h1
    have h2 := toNat_mod_of_mem_blockSizeWords (by decide) h2
    omega
  · obtain ⟨i, hi, rfl⟩ := List.mem_map.1 hright
    have hi := hfixed i hi
    obtain h | h := List.mem_append.1 hleft
    all_goals
      have h := toNat_mod_of_mem_blockSizeWords (by decide) h
      omega

theorem legalWords_length : legalWords.length = 517 := by
  simp [legalWords_eq, blockSizeWords, fixedCommands]

/-- Settles O4: the listed words are those of the well-formed commands, which are the words that decode. -/
theorem legalWordsAreTheListOfR97 : Obligations.LegalWordsAreTheListOfR97 := by
  have hpad (b : BitVec 8) (h : b ≠ 0) : decode (encode (.pad b)) = .ok (.pad b) :=
    decodeOfEncodeIsTheCommand _ (Instr.wellFormed_iff.2 (.inl ⟨b, h, rfl⟩))
  have hunpad (b : BitVec 8) (h : b ≠ 0) : decode (encode (.unpad b)) = .ok (.unpad b) :=
    decodeOfEncodeIsTheCommand _ (Instr.wellFormed_iff.2 (.inr (.inl ⟨b, h, rfl⟩)))
  refine ⟨hpad, hunpad, hpad 16 (by decide), hunpad 16 (by decide), rfl, rfl, rfl, rfl, rfl, rfl, rfl,
    legalWords_length, legalWords_nodup, fun v => ?_⟩
  simp only [decode_eq_ok, mem_legalWords]

end Sys2Proof
end


section
/-! PROOFS. BLK.ENC and BLK.DEC, and all that they leave (40_primitives.md R122, R123). -/

namespace Sys2Proof.Machine

open Sys2Proof

/-- A block command needs neither the IV nor the nonce, so it consumes nothing, in any mode (R41, R207). -/
theorem consume_of_oneBlock {i : Instr} (hi : oneBlock i = true) (s : State) : consume i s = s := by
  cases i with
  | blkEnc => rfl
  | blkDec => rfl
  | _ => cases hi

/-- A block command in range with the key loaded writes the block that `f` makes of its input, and changes nothing else
but STATUS and OUT_LEN (R122, R123). -/
theorem exec_oneBlock_writes {i : Instr} {f : Params → List Byte → Block → Block} (hi : oneBlock i = true)
    (hf : RunsOnBlock i f) {s : State} (hwf : s.buf.wf = true) (hsrc : s.SrcFits) (hdst : s.DstFits 16)
    (hlen : s.len = 16) (hkey : s.KeyLoaded) :
    ∃ t, exec i s = .next t ∧
      t = { s with buf := t.buf, outLen := 16, err := false, errCode := 0, padOk := false } ∧
      t.buf.readBytes s.dst.toNat 16 = blockBytes (f s.params (keyBytes s) (srcBlock s)) ∧
      (∀ a, a < s.dst.toNat ∨ s.dst.toNat + 16 ≤ a → t.buf.read a = s.buf.read a) := by
  have hsuccess := exec_success hwf (checks_pass_of_oneBlock hi hsrc hdst hlen hkey) (hf s)
  rwa [consume_of_oneBlock hi, blockBytes_length] at hsuccess

/-- Settles O36: BLK.ENC is the block command whose block function is `E`. -/
theorem blkEncWritesTheEncryptedBlock : Obligations.BlkEncWritesTheEncryptedBlock :=
  fun _ ⟨_, ⟨hwf, _⟩, _⟩ => exec_oneBlock_writes rfl blkEnc_runsOnBlock hwf

/-- Settles O37: BLK.DEC is the block command whose block function is `D`. -/
theorem blkDecWritesTheDecryptedBlock : Obligations.BlkDecWritesTheDecryptedBlock :=
  fun _ ⟨_, ⟨hwf, _⟩, _⟩ => exec_oneBlock_writes rfl blkDec_runsOnBlock hwf

end Sys2Proof.Machine
end

section
/-! PROOFS. The padding codec as functions: what `Pad` adds and exactly when `Unpad` accepts (41_padding_codec.md R140,
R141, R145). -/

namespace Sys2Proof.Machine

open Sys2Proof

/-- Settles O40: the length of `Pad` by division with remainder, its bytes by the two halves of an append. -/
theorem padAppendsTheirOwnCount : Obligations.PadAppendsTheirOwnCount := by
  intro b bs h1 h2 n
  have hmod := Nat.mod_lt b.length h1
  have hn : 1 ≤ n ∧ n ≤ bs := by omega
  have hlen : (pad b bs).length = b.length + n := pad_length b bs
  refine ⟨hn.1, hn.2, ?_, by omega, fun i hi => List.getElem?_append_left hi, fun i hlo hhi => ?_⟩
  · have hdiv := Nat.div_add_mod b.length bs
    rw [hlen, Nat.mul_succ]
    omega
  · have hval : (pad b bs)[i]? = some (BitVec.ofNat 8 n) := by
      rw [pad, List.getElem?_append_right hlo, List.getElem?_replicate, if_pos (by omega)]
    rw [hval, Option.map_some, BitVec.toNat_ofNat, Nat.mod_eq_of_lt (by omega)]

/-- The value of the last byte: the length of the run that `Unpad` looks for (R141). -/
def lastValue (b : List Byte) : Nat := (b.getD (b.length - 1) 0).toNat

/-- A non-empty whole number of blocks that ends in a whole run: its last byte, of value `1..bs`, fills as many last
bytes as its value says (R141, R145). -/
abbrev EndsInWholeRun (b : List Byte) (bs : Nat) : Prop :=
  0 < b.length ∧ b.length % bs = 0 ∧ 1 ≤ lastValue b ∧ lastValue b ≤ bs ∧
    ∀ x ∈ b.drop (b.length - lastValue b), x.toNat = lastValue b

/-- The last `k` bytes of a sequence, counted from its end. -/
theorem forall_mem_drop_iff {b : List Byte} {k : Nat} (hk : k ≤ b.length) (p : Byte → Prop) :
    (∀ x ∈ b.drop (b.length - k), p x) ↔ ∀ i < k, p (b.getD (b.length - (i + 1)) 0) := by
  constructor
  · intro h i hi
    rw [List.getD_eq_getElem _ _ (by omega)]
    exact h _ (List.mem_drop_iff_getElem.2 ⟨k - (i + 1), by omega, by congr 1; omega⟩)
  · intro h x hx
    obtain ⟨j, hj, rfl⟩ := List.mem_drop_iff_getElem.1 hx
    have hidx : b.length - (k - (j + 1) + 1) = b.length - k + j := by omega
    have hp := h (k - (j + 1)) (by omega)
    rwa [hidx, List.getD_eq_getElem _ _ (by omega)] at hp

/-- The loop of `Unpad` passes exactly when the last bytes are a run of their value (R141). -/
theorem unpadLoop_iff {b : List Byte} (hk : lastValue b ≤ b.length) :
    (List.range (lastValue b)).all (fun i => b.getD (b.length - (i + 1)) 0 == b.getD (b.length - 1) 0) = true ↔
      ∀ x ∈ b.drop (b.length - lastValue b), x.toNat = lastValue b := by
  rw [forall_mem_drop_iff hk (·.toNat = lastValue b)]
  simp only [List.all_eq_true, List.mem_range, beq_iff_eq, lastValue, BitVec.toNat_inj]

/-- A last value of at most `bs` is at most the length, a non-zero multiple of `bs`. -/
theorem lastValue_le_length {b : List Byte} {bs : Nat} (hpos : 0 < b.length) (hmod : b.length % bs = 0)
    (hle : lastValue b ≤ bs) : lastValue b ≤ b.length :=
  hle.trans (Nat.le_of_dvd hpos (Nat.dvd_of_mod_eq_zero hmod))

/-- `Unpad` strips a whole run and rejects anything else (R141, R145). -/
theorem unpad_eq_ite (b : List Byte) (bs : Nat) :
    unpad b bs = if EndsInWholeRun b bs then some (b.take (b.length - lastValue b)) else none := by
  refine (unpad_eq b bs).trans (if_congr ⟨?_, ?_⟩ rfl rfl)
  · rintro ⟨hmod, hpos, hlo, hhi, hrun⟩
    exact ⟨hpos, hmod, hlo, hhi, (unpadLoop_iff (lastValue_le_length hpos hmod hhi)).1 hrun⟩
  · rintro ⟨hpos, hmod, hlo, hhi, hrun⟩
    exact ⟨hmod, hpos, hlo, hhi, (unpadLoop_iff (lastValue_le_length hpos hmod hhi)).2 hrun⟩

theorem unpad_of_wholeRun {b : List Byte} {bs : Nat} (h : EndsInWholeRun b bs) :
    unpad b bs = some (b.take (b.length - lastValue b)) := by
  rw [unpad_eq_ite, if_pos h]

theorem unpad_of_not_wholeRun {b : List Byte} {bs : Nat} (h : ¬ EndsInWholeRun b bs) : unpad b bs = none := by
  rw [unpad_eq_ite, if_neg h]

/-- Settles O41: `Unpad` accepts a whole run and nothing else; the source's three cases are evaluated. -/
theorem unpadAcceptsExactlyAWholeRun : Obligations.UnpadAcceptsExactlyAWholeRun :=
  ⟨fun _ _ _ _ => ⟨unpad_of_wholeRun, unpad_of_not_wholeRun⟩, by decide⟩

end Sys2Proof.Machine
end

section
/-! PROOFS. The commands PAD and UNPAD (41_padding_codec.md R142 to R144; 60_exceptions.md R200, R208 to R210). -/

namespace Sys2Proof.Machine

open Sys2Proof

/-! ### The checks -/

/-- PAD with its ranges in BUF passes its checks, in any mode (R142, R200). -/
theorem checks_pass_pad {bs : BitVec 8} {s : State} (hbs : bs ≠ 0) (hsrc : s.SrcFits)
    (hdst : s.DstFits (s.len.toNat + (bs.toNat - s.len.toNat % bs.toNat))) :
    firstFailure (checks (.pad bs) s) = none :=
  checks_pass_iff.2
    ⟨bne_iff_ne.2 hbs, rfl, hsrc, nofun, fun _ => hdst, nofun, nofun, nofun, nofun, nofun⟩

/-- UNPAD with its ranges in BUF passes its checks, in any mode (R143, R200). -/
theorem checks_pass_unpad {bs : BitVec 8} {s : State} (hbs : bs ≠ 0) (hsrc : s.SrcFits)
    (hdst : s.DstFits s.len.toNat) : firstFailure (checks (.unpad bs) s) = none :=
  checks_pass_iff.2
    ⟨bne_iff_ne.2 hbs, rfl, hsrc, nofun, fun _ => hdst, nofun, nofun, nofun, nofun, nofun⟩

/-! ### One command -/

/-- The body of UNPAD on an input that `Unpad` accepts (R143). -/
theorem unpadBody_of_some {bs : BitVec 8} {s : State} {out : List Byte} (h : unpad (srcBytes s) bs.toNat = some out) :
    bodyOf (.unpad bs) s = .complete out true :=
  congrArg acceptOrRaise h

/-- The body of UNPAD on an input that `Unpad` rejects (R143, R208). -/
theorem unpadBody_of_none {bs : BitVec 8} {s : State} (h : unpad (srcBytes s) bs.toNat = none) :
    bodyOf (.unpad bs) s = .invalidPadding :=
  congrArg acceptOrRaise h

/-- Settles O42: PAD passes its checks and its body completes with the padded input; it consumes nothing. -/
theorem padCommandWritesThePaddedInput : Obligations.PadCommandWritesThePaddedInput := by
  intro bs s ⟨_, ⟨hwf, _⟩, _⟩ hbs hsrc n hdst
  have hpad : pad (srcBytes s) bs.toNat = srcBytes s ++ List.replicate n (BitVec.ofNat 8 n) := by
    rw [pad, srcBytes_length]
  have hlen : (pad (srcBytes s) bs.toNat).length = s.len.toNat + n := by rw [pad_length, srcBytes_length]
  obtain ⟨t, ht, hts, hout, hframe⟩ := exec_success hwf (checks_pass_pad hbs hsrc hdst) (i := .pad bs) rfl
  rw [hlen] at hts hout hframe
  exact ⟨t, ht, hts, hout.trans hpad, hframe⟩

/-- Settles O43: UNPAD passes its checks; its body completes on a whole run and raises INVALID_PADDING on any other
input. -/
theorem unpadCommandStripsOrRejects : Obligations.UnpadCommandStripsOrRejects := by
  intro bs s ⟨_, ⟨hwf, _⟩, _⟩ hbs hsrc hdst b k accepts
  have hchecks := checks_pass_unpad hbs hsrc hdst
  have hb : b.length = s.len.toNat := srcBytes_length s
  have hk : lastValue b = k := by rw [lastValue, hb]
  have haccepts : accepts ↔ EndsInWholeRun b bs.toNat := by simp only [EndsInWholeRun, hb, hk, accepts]
  refine ⟨fun h => ?_, fun h => ?_⟩
  · have hunpad := unpad_of_wholeRun (haccepts.1 h)
    rw [hb, hk] at hunpad
    have hlen : (b.take (s.len.toNat - k)).length = s.len.toNat - k := by
      rw [List.length_take, hb]
      omega
    have hsuccess := exec_success hwf hchecks (unpadBody_of_some hunpad)
    rwa [hlen] at hsuccess
  · exact exec_invalidPadding hchecks (unpadBody_of_none (unpad_of_not_wholeRun (mt haccepts.2 h)))

/-! ### UNPAD after PAD -/

/-- The state after a PAD that completed, with UNPAD pointed at what it wrote and at `d` (R144). -/
abbrev State.readyForUnpad (s : State) (bs : BitVec 8) (d : Word) : State :=
  let out := pad (srcBytes s) bs.toNat
  { complete out false (consume (.pad bs) s) with src := s.dst, len := BitVec.ofNat 32 out.length, dst := d }

/-- The input of that UNPAD is what PAD wrote (R142). -/
theorem srcBytes_readyForUnpad {s : State} {bs : BitVec 8} (d : Word) (hwf : s.buf.wf = true)
    (hlen : (BitVec.ofNat 32 (pad (srcBytes s) bs.toNat).length).toNat = (pad (srcBytes s) bs.toNat).length) :
    srcBytes (s.readyForUnpad bs d) = pad (srcBytes s) bs.toNat :=
  calc srcBytes (s.readyForUnpad bs d)
      = (s.readyForUnpad bs d).buf.readBytes s.dst.toNat (pad (srcBytes s) bs.toNat).length := congrArg _ hlen
    _ = pad (srcBytes s) bs.toNat := (complete_writes (s := consume (.pad bs) s) hwf _ false).1

/-- After a PAD that passed its checks, UNPAD of its output passes them as well: PAD checked that the output fits at
its DST (R200, R204). -/
theorem checks_readyForUnpad {s : State} {bs : BitVec 8} {d : Word} (hbs : bs ≠ 0)
    (hc : firstFailure (checks (.pad bs) s) = none)
    (hlen : (BitVec.ofNat 32 (pad (srcBytes s) bs.toNat).length).toNat = (pad (srcBytes s) bs.toNat).length)
    (hd : (s.readyForUnpad bs d).DstFits (s.readyForUnpad bs d).len.toNat) :
    firstFailure (checks (.unpad bs) (s.readyForUnpad bs d)) = none := by
  obtain ⟨-, -, -, -, hdst, -⟩ := checks_pass_iff.1 hc
  have hout : (pad (srcBytes s) bs.toNat).length ≤ maxOut (.pad bs) s.mode s.len.toNat := bodyOf_length_le rfl
  have hfit : (s.readyForUnpad bs d).SrcFits :=
    calc s.dst.toNat + (BitVec.ofNat 32 (pad (srcBytes s) bs.toNat).length).toNat
        = s.dst.toNat + (pad (srcBytes s) bs.toNat).length := by rw [hlen]
      _ ≤ s.dst.toNat + maxOut (.pad bs) s.mode s.len.toNat := Nat.add_le_add_left hout _
      _ ≤ s.params.memBytes := hdst rfl
  exact checks_pass_unpad hbs hfit hd

/-- Settles O44: `Unpad` undoes `Pad`, and UNPAD passes its checks and reads what PAD wrote. -/
theorem unpadUndoesPad : Obligations.UnpadUndoesPad := by
  refine ⟨fun x bs => unpad_pad x, fun bs s t d hinv hbs h he hd => ?_⟩
  obtain ⟨⟨-, -, -, -, -, hmem⟩, ⟨hwf, -⟩, -⟩ := hinv
  have hwft := exec_wf hwf h
  obtain ⟨out, p, hc, hb, rfl⟩ := exec_succeeded h he
  have hlen := outLen_toNat_of_passed hmem hc hb
  cases hb
  have hunpad : unpad (srcBytes (s.readyForUnpad bs d)) bs.toNat = some (srcBytes s) := by
    have hpos : bs.toNat ≠ 0 := fun h0 => hbs (BitVec.eq_of_toNat_eq h0)
    rw [srcBytes_readyForUnpad d hwf hlen, unpad_pad _ (by omega) (by omega)]
  obtain ⟨u, hu, hus, hread, -⟩ := exec_success (s := s.readyForUnpad bs d) hwft
    (checks_readyForUnpad hbs hc hlen hd) (unpadBody_of_some hunpad)
  rw [srcBytes_length] at hus hread
  exact ⟨u, hu, by rw [hus], by rw [hus], by rw [hus, BitVec.ofNat_toNat, BitVec.setWidth_eq], hread⟩

end Sys2Proof.Machine
end

section
/-! PROOFS. The mode functions, block by block: ECB, CBC and what an edit of a CBC ciphertext does, CTR
(42_mode_engine.md R161 to R165, R180, R181). -/

namespace Sys2Proof.Machine

open Sys2Proof

/-! ### Lengths that decryption accepts -/

theorem wholeBlocks_eq_false {c : List Byte} (h : c.length = 0 ∨ c.length % 16 ≠ 0) : wholeBlocks c = false := by
  rw [← Bool.not_eq_true, wholeBlocks_iff]
  omega

theorem ecbDecrypt_of_wholeBlocks {c : List Byte} (p : Params) (k : List Byte) (h0 : c.length ≠ 0)
    (h16 : c.length % 16 = 0) : ecbDecrypt p k c = unpad (joinBlocks ((blocks c).map (decBlock p k))) 16 :=
  if_pos ((wholeBlocks_iff c).2 ⟨h0, h16⟩)

theorem cbcDecrypt_of_wholeBlocks {c : List Byte} (p : Params) (k : List Byte) (iv : Block) (h0 : c.length ≠ 0)
    (h16 : c.length % 16 = 0) : cbcDecrypt p k iv c = unpad (joinBlocks (cbcUnchain p k iv (blocks c))) 16 :=
  if_pos ((wholeBlocks_iff c).2 ⟨h0, h16⟩)

/-- As many blocks as a sequence of whole blocks has make a sequence of its length. -/
theorem joinBlocks_length_of_blocks {b : List Byte} {xs : List Block} (h16 : b.length % 16 = 0)
    (hl : xs.length = (blocks b).length) : (joinBlocks xs).length = b.length := by
  rw [joinBlocks_length, hl, blocks_length]
  omega

/-! ### ECB -/

/-- Settles O45: block `j` of what was joined is `E`, or `D`, of block `j` of what was split. -/
theorem ecbWorksBlockByBlock : Obligations.EcbWorksBlockByBlock := by
  refine ⟨fun p k b => ⟨?_, fun j => slice_ecbEncrypt p k b j⟩, fun p k c =>
    ⟨fun h => ?_, fun h0 h16 => ⟨_, ecbDecrypt_of_wholeBlocks p k h0 h16, ?_, fun j hj => ?_⟩⟩⟩
  · rw [ecbEncrypt_length, pad_length]
  · rw [ecbDecrypt, wholeBlocks_eq_false h, if_neg nofun]
  · exact joinBlocks_length_of_blocks h16 (List.length_map _)
  · rw [slice_joinBlocks _ _ (by simp; omega), List.getElem_map, blocks_getElem]

/-! ### CBC -/

/-- The block that CBC chains block `j` to: the one before it, or the IV for the first (R163, R164). -/
theorem previousBlock_eq_slice (b : List Byte) (iv : Block) {j : Nat} (h : 16 * j ≤ b.length) :
    (if j = 0 then iv else (blocks b).getD (j - 1) iv) =
      if j = 0 then iv else blockOfBytes (slice b (16 * j - 16) (16 * j)) := by
  split_ifs with h0
  · rfl
  · have hlo : 16 * (j - 1) = 16 * j - 16 := by omega
    have hhi : 16 * j - 16 + 16 = 16 * j := by omega
    rw [List.getD_eq_getElem _ _ (by rw [blocks_length]; omega), blocks_getElem, hlo, hhi]

/-- Settles O47: block `j` of the chain, whose blocks are those of the ciphertext. -/
theorem cbcEncryptionChainsBlocks : Obligations.CbcEncryptionChainsBlocks := by
  intro p k iv b
  have hlen : (cbcEncrypt p k iv b).length = (pad b 16).length := by rw [cbcEncrypt_length, pad_length]
  have hblocks : blocks (cbcEncrypt p k iv b) = cbcChain p k iv (blocks (pad b 16)) := blocks_joinBlocks _
  refine ⟨hlen, fun j hj => ?_⟩
  rw [← previousBlock_eq_slice _ _ (by omega), hblocks, cbcEncrypt, slice_joinBlocks _ _ (by simp; omega),
    cbcChain_getElem, blocks_getElem]

/-- Settles O48: block `j` of the unchained ciphertext blocks. -/
theorem cbcDecryptionUnchainsBlocks : Obligations.CbcDecryptionUnchainsBlocks := by
  refine fun p k iv c =>
    ⟨fun h => ?_, fun h0 h16 => ⟨_, cbcDecrypt_of_wholeBlocks p k iv h0 h16, ?_, fun j hj => ?_⟩⟩
  · rw [cbcDecrypt, wholeBlocks_eq_false h, if_neg nofun]
  · exact joinBlocks_length_of_blocks h16 (cbcUnchain_length ..)
  · rw [slice_joinBlocks _ _ (by simp; omega), cbcUnchain_getElem, blocks_getElem,
      previousBlock_eq_slice _ _ (by omega)]

/-- Block `i` of a CBC decryption, by index with a default (R164). -/
theorem cbcUnchain_getD (p : Params) (k : List Byte) (v : Block) {c : List Block} (d : Block) {i : Nat}
    (h : i < c.length) : (cbcUnchain p k v c).getD i d =
      xorBlock (decBlock p k (c.getD i d)) (if i = 0 then v else c.getD (i - 1) d) := by
  rw [List.getD_eq_getElem _ _ (by simpa using h), cbcUnchain_getElem, List.getD_eq_getElem _ _ h]
  congr 1
  split_ifs with h0
  · rfl
  · rw [List.getD_eq_getElem _ _ (by omega), List.getD_eq_getElem _ _ (by omega)]

/-- The blocks of an edited ciphertext, by index: the edited one alone is another. -/
theorem getD_set_block {c : List Block} {n : Nat} (x d : Block) (hn : n < c.length) (i : Nat) :
    (c.set n x).getD i d = if i = n then x else c.getD i d := by
  split_ifs with h
  · rw [h, List.getD_eq_getElem?_getD, List.getElem?_set_self hn, Option.getD_some]
  · rw [List.getD_eq_getElem?_getD, List.getElem?_set_ne (Ne.symm h), List.getD_eq_getElem?_getD]

/-- Settles O50: a plaintext block depends on its own ciphertext block through `D`, on the one before it through an
exclusive-or, and on no other. -/
theorem cbcEditFlipsTheNextBlock : Obligations.CbcEditFlipsTheNextBlock := by
  refine fun p k iv x c => ⟨fun j hj hlt => ?_, fun i hi => ?_⟩
  · intro c' i hi
    have hblock := getD_set_block (xorBlock (c.getD (j - 1) iv) x) iv (show j - 1 < c.length by omega)
    have hi' : i < c'.length := by rwa [List.length_set]
    rw [cbcUnchain_getD p k iv iv hi', hblock i]
    by_cases hij : i = j
    · subst hij
      rw [hblock (i - 1), if_neg (by omega), if_neg (by omega), if_pos rfl, if_pos rfl, cbcUnchain_getD p k iv iv hlt,
        if_neg (by omega), xorBlock_assoc]
    · have hprev : (if i = 0 then iv else c'.getD (i - 1) iv) = if i = 0 then iv else c.getD (i - 1) iv := by
        split_ifs with h0
        · rfl
        · rw [hblock (i - 1), if_neg (by omega)]
      rw [hprev, if_neg hij]
      by_cases hpred : i = j - 1
      · have hfirst : i = 0 ↔ j = 1 := by omega
        have hindex : i - 1 = j - 2 := by omega
        rw [if_pos hpred, if_pos hpred, if_congr hfirst rfl rfl, hindex]
      · rw [if_neg hpred, if_neg hpred, cbcUnchain_getD p k iv iv hi]
  · rw [cbcUnchain_getD p k _ iv hi]
    split_ifs with h0
    · subst h0
      rw [cbcUnchain_getD p k iv iv hi, if_pos rfl, xorBlock_assoc]
    · rw [cbcUnchain_getD p k iv iv hi, if_neg h0]

/-! ### CTR -/

/-- The body of each CTR command (R169, R173, R177). -/
theorem bodyOf_ctr {i : Instr} {s : State} (hi : i = .enc ∨ i = .dec ∨ i = .ctrXcrypt) (hm : s.mode = 2) :
    bodyOf i s = .complete (ctrTransform s.params (keyBytes s) (nonceVal s) (srcBytes s)) false := by
  rcases hi with rfl | rfl | rfl
  · exact encBody_ctr hm
  · exact decBody_ctr hm
  · rfl

/-- What a CTR transform is XORed with is the beginning of the keystream, and so a function of key, nonce and length
(R165, R181). -/
theorem xorBytes_ctrTransform (p : Params) (k : List Byte) (nonce : Nat) (b : List Byte) :
    xorBytes b (ctrTransform p k nonce b) = (keystream p k nonce ((b.length + 15) / 16)).take b.length := by
  rw [ctrTransform, xorBytes_comm, xorBytes_comm b, xorBytes_cancel]
  rw [List.length_take]
  omega

/-- Settles O51: the length of the transform, the transform twice, and the keystream alone. -/
theorem ctrIsItsOwnInverse : Obligations.CtrIsItsOwnInverse := by
  refine ⟨fun i s t hi hm h he => ?_, ctrTransform_ctrTransform, fun p k nonce b b' hl => ?_⟩
  · obtain ⟨out, p, -, hb, rfl⟩ := exec_succeeded h he
    rw [bodyOf_ctr hi hm] at hb
    cases hb
    simp
  · rw [xorBytes_ctrTransform, xorBytes_ctrTransform, hl]

end Sys2Proof.Machine
end

section
/-! PROOFS. The mode commands: ENC, DEC, CHECK and CTR.XCRYPT (42_mode_engine.md R166 to R177, R183; 60_exceptions.md
R200, R207 to R210). -/

namespace Sys2Proof.Machine

open Sys2Proof

/-! ### Checks and consumption -/

section
variable {i : Instr} {s : State}

/-- In ECB mode a command needs its ranges in BUF and the key (R200). -/
theorem checks_pass_ecb (hi : i = .enc ∨ i = .dec ∨ i = .check) (hm : s.mode = 0) (hsrc : s.SrcFits)
    (hdst : usesDst i = true → s.DstFits (maxOut i 0 s.len.toNat)) (hkey : s.KeyLoaded) :
    firstFailure (checks i s) = none := by
  rw [checks_pass_iff, hm]
  rcases hi with rfl | rfl | rfl
  all_goals exact ⟨rfl, rfl, hsrc, nofun, hdst, nofun, nofun, fun _ => hkey, nofun, nofun⟩

/-- In CBC mode a command needs the IV as well (R200). -/
theorem checks_pass_cbc (hi : i = .enc ∨ i = .dec ∨ i = .check) (hm : s.mode = 1) (hsrc : s.SrcFits)
    (hdst : usesDst i = true → s.DstFits (maxOut i 1 s.len.toNat)) (hkey : s.KeyLoaded) (hiv : s.IvValid) :
    firstFailure (checks i s) = none := by
  rw [checks_pass_iff, hm]
  rcases hi with rfl | rfl | rfl
  all_goals exact ⟨rfl, rfl, hsrc, nofun, hdst, nofun, nofun, fun _ => hkey, fun _ => hiv, nofun⟩

/-- In CTR mode a command needs the nonce, and its output is as long as its input (R200, R204). -/
theorem checks_pass_ctr (hi : i = .enc ∨ i = .dec ∨ i = .ctrXcrypt) (hm : s.mode = 2) (hsrc : s.SrcFits)
    (hdst : s.DstFits s.len.toNat) (hkey : s.KeyLoaded) (hnonce : s.NonceValid) :
    firstFailure (checks i s) = none := by
  rw [checks_pass_iff, hm]
  rcases hi with rfl | rfl | rfl
  all_goals
    exact ⟨rfl, rfl, hsrc, nofun, fun _ => hdst, nofun, nofun, fun _ => hkey, nofun, fun _ => hnonce⟩

/-- What a command consumes in the mode `m` (R41, R207). -/
theorem consume_of_mode {m : BitVec 2} (hm : s.mode = m) : consume i s =
    { s with
      ivMask := if needsIV i m then 0 else s.ivMask
      nonceMask := if needsNonce i m then 0 else s.nonceMask } :=
  hm ▸ rfl

/-- ECB consumes nothing (R207). -/
theorem consume_ecb (hi : i = .enc ∨ i = .dec ∨ i = .check) (hm : s.mode = 0) : consume i s = s := by
  rw [consume_of_mode hm]
  rcases hi with rfl | rfl | rfl
  all_goals rfl

/-- CBC consumes the IV (R207). -/
theorem consume_cbc (hi : i = .enc ∨ i = .dec ∨ i = .check) (hm : s.mode = 1) :
    consume i s = { s with ivMask := 0 } := by
  rw [consume_of_mode hm]
  rcases hi with rfl | rfl | rfl
  all_goals rfl

/-- CTR consumes the nonce (R207). -/
theorem consume_ctr (hi : i = .enc ∨ i = .dec ∨ i = .ctrXcrypt) (hm : s.mode = 2) :
    consume i s = { s with nonceMask := 0 } := by
  rw [consume_of_mode hm]
  rcases hi with rfl | rfl | rfl
  all_goals rfl

end

/-! ### ENC and CTR.XCRYPT -/

/-- Settles O52: the checks of ECB mode, the body of ENC in it, and nothing to consume. -/
theorem encInEcbWritesTheCiphertext : Obligations.EncInEcbWritesTheCiphertext := by
  intro s ⟨_, ⟨hwf, _⟩, _⟩ hm hsrc n hdst hkey
  have hn : s.len.toNat + (16 - s.len.toNat % 16) = n := by omega
  have hdst' : s.DstFits (s.len.toNat + (16 - s.len.toNat % 16)) := by rwa [hn]
  have hchecks := checks_pass_ecb (.inl rfl) hm hsrc (fun _ => hdst') hkey
  have hsuccess := exec_success hwf hchecks (encBody_ecb hm)
  rwa [consume_ecb (.inl rfl) hm, ecbEncrypt_length, srcBytes_length, hn] at hsuccess

/-- Settles O53: the checks of CBC mode, the body of ENC in it, and the IV consumed. -/
theorem encInCbcWritesTheCiphertext : Obligations.EncInCbcWritesTheCiphertext := by
  intro s ⟨_, ⟨hwf, _⟩, _⟩ hm hsrc n hdst hkey hiv
  have hn : s.len.toNat + (16 - s.len.toNat % 16) = n := by omega
  have hdst' : s.DstFits (s.len.toNat + (16 - s.len.toNat % 16)) := by rwa [hn]
  have hchecks := checks_pass_cbc (.inl rfl) hm hsrc (fun _ => hdst') hkey hiv
  have hsuccess := exec_success hwf hchecks (encBody_cbc hm)
  rwa [consume_cbc (.inl rfl) hm, cbcEncrypt_length, srcBytes_length, hn] at hsuccess

/-- Settles O54: the checks of CTR mode, the one body the three commands have in it, and the nonce consumed. -/
theorem ctrCommandsWriteTheTransform : Obligations.CtrCommandsWriteTheTransform := by
  intro i s hi ⟨_, ⟨hwf, _⟩, _⟩ hm hsrc hdst hkey hnonce
  have hsuccess := exec_success hwf (checks_pass_ctr hi hm hsrc hdst hkey hnonce) (bodyOf_ctr hi hm)
  rwa [consume_ctr hi hm, ctrTransform_length, srcBytes_length, BitVec.ofNat_toNat, BitVec.setWidth_eq] at hsuccess

/-! ### DEC -/

/-- `Unpad` strips at least one byte (R141). -/
theorem unpad_length_lt {b x : List Byte} {bs : Nat} (h : unpad b bs = some x) : x.length < b.length := by
  rw [unpad_eq_ite, Option.ite_none_right_eq_some] at h
  obtain ⟨⟨hpos, -, hlo, -, -⟩, hx⟩ := h
  cases hx
  rw [List.length_take]
  omega

/-- What decryption accepts is shorter than the ciphertext: each of its blocks gives one block to unpad. -/
theorem length_lt_of_unpad_joinBlocks {c x : List Byte} {ys : List Block} (hl : ys.length = (blocks c).length)
    (h : (if wholeBlocks c then unpad (joinBlocks ys) 16 else none) = some x) : x.length < c.length := by
  obtain ⟨hc, hx⟩ := Option.ite_none_right_eq_some.1 h
  rw [← joinBlocks_length_of_blocks ((wholeBlocks_iff c).1 hc).2 hl]
  exact unpad_length_lt hx

theorem ecbDecrypt_length_lt {p : Params} {k c x : List Byte} (h : ecbDecrypt p k c = some x) : x.length < c.length :=
  length_lt_of_unpad_joinBlocks (List.length_map _) h

theorem cbcDecrypt_length_lt {p : Params} {k c x : List Byte} {iv : Block} (h : cbcDecrypt p k iv c = some x) :
    x.length < c.length :=
  length_lt_of_unpad_joinBlocks (cbcUnchain_length ..) h

/-- DEC past its checks with the decryption `o`: it writes what `o` accepts, or ends in INVALID_PADDING (R170, R208). -/
theorem exec_dec_accepts_or_rejects {s : State} {o : Option (List Byte)} (hwf : s.buf.wf = true)
    (hc : firstFailure (checks .dec s) = none) (hb : decBody s = acceptOrRaise o)
    (hlt : ∀ x, o = some x → x.length < (srcBytes s).length) :
    (∀ x, o = some x → ∃ t, exec .dec s = .next t ∧
      t = { consume .dec s with
        buf := t.buf, outLen := BitVec.ofNat 32 x.length, err := false, errCode := 0, padOk := true } ∧
      t.buf.readBytes s.dst.toNat x.length = x ∧ x.length < s.len.toNat ∧
      (∀ a, a < s.dst.toNat ∨ s.dst.toNat + x.length ≤ a → t.buf.read a = s.buf.read a)) ∧
    (o = none → exec .dec s = .next ((consume .dec s).errored 2)) := by
  refine ⟨?_, ?_⟩
  · rintro x rfl
    obtain ⟨t, ht, hts, hout, hframe⟩ := exec_success hwf hc hb
    exact ⟨t, ht, hts, hout, srcBytes_length s ▸ hlt x rfl, hframe⟩
  · rintro rfl
    exact exec_invalidPadding hc hb

/-- Settles O55: DEC on the ECB decryption, with nothing consumed. -/
theorem decInEcbWritesThePlaintextOrRejects : Obligations.DecInEcbWritesThePlaintextOrRejects := by
  intro s ⟨_, ⟨hwf, _⟩, _⟩ hm hsrc hdst hkey
  have hchecks := checks_pass_ecb (.inr (.inl rfl)) hm hsrc (fun _ => hdst) hkey
  have houtcome := exec_dec_accepts_or_rejects hwf hchecks (decBody_ecb hm) fun _ => ecbDecrypt_length_lt
  rwa [consume_ecb (.inr (.inl rfl)) hm] at houtcome

/-- Settles O56: DEC on the CBC decryption, with the IV consumed either way. -/
theorem decInCbcWritesThePlaintextOrRejects : Obligations.DecInCbcWritesThePlaintextOrRejects := by
  intro s ⟨_, ⟨hwf, _⟩, _⟩ hm hsrc hdst hkey hiv
  have hchecks := checks_pass_cbc (.inr (.inl rfl)) hm hsrc (fun _ => hdst) hkey hiv
  have houtcome := exec_dec_accepts_or_rejects hwf hchecks (decBody_cbc hm) fun _ => cbcDecrypt_length_lt
  rwa [consume_cbc (.inr (.inl rfl)) hm] at houtcome

/-! ### CHECK -/

/-- The body of CHECK in ECB (R175). -/
theorem checkBody_ecb {s : State} (h : s.mode = 0) :
    checkBody s = .complete [] (ecbDecrypt s.params (keyBytes s) (srcBytes s)).isSome := by
  simp [checkBody, blockDecrypt, h]

/-- The body of CHECK in CBC (R176). -/
theorem checkBody_cbc {s : State} (h : s.mode = 1) :
    checkBody s = .complete [] (cbcDecrypt s.params (keyBytes s) (ivBlock s) (srcBytes s)).isSome := by
  simp [checkBody, blockDecrypt, h]

/-- Settles O57: CHECK passes its checks whatever DST is, and completes with no output. -/
theorem checkReportsTheVerdict : Obligations.CheckReportsTheVerdict := by
  refine fun s hsrc hkey => ⟨fun hm => ?_, fun hm hiv => ?_⟩
  · rw [exec_complete (checks_pass_ecb (.inr (.inr rfl)) hm hsrc nofun hkey) (checkBody_ecb hm),
      consume_ecb (.inr (.inr rfl)) hm]
    rfl
  · rw [exec_complete (checks_pass_cbc (.inr (.inr rfl)) hm hsrc nofun hkey hiv) (checkBody_cbc hm),
      consume_cbc (.inr (.inr rfl)) hm]
    rfl

/-- CBC decryption of one block (R164). -/
theorem cbcDecrypt_oneBlock (p : Params) (k : List Byte) (iv : Block) {c : List Byte} (h : c.length = 16) :
    cbcDecrypt p k iv c = unpad (blockBytes (xorBlock (decBlock p k (blockOfBytes c)) iv)) 16 := by
  have hblocks : blocks c = [blockOfBytes c] := by
    rw [← blocks_joinBlocks [blockOfBytes c], joinBlocks_cons, joinBlocks_nil, List.append_nil,
      blockBytes_blockOfBytes c h]
  rw [cbcDecrypt_of_wholeBlocks p k iv (by omega) (by omega), hblocks, cbcUnchain, cbcUnchain, joinBlocks_cons,
    joinBlocks_nil, List.append_nil]

/-- Settles O59: the verdict of CHECK in CBC mode is that of `Unpad` on the one block it decrypts. -/
theorem checkOfOneBlockIsThePaddingOracle : Obligations.CheckOfOneBlockIsThePaddingOracle := by
  intro s hm hsrc hlen hkey hiv
  obtain ⟨-, hcbc⟩ := checkReportsTheVerdict s hsrc hkey
  refine ⟨_, hcbc hm hiv, ?_⟩
  have h16 : s.len.toNat = 16 := by rw [hlen]; rfl
  rw [h16, cbcDecrypt_oneBlock _ _ _ (Memory.readBytes_length ..), Option.isSome_iff_exists]

end Sys2Proof.Machine
end

section
/-! PROOFS. How a command ends: which check decides its error, and what each ending leaves (60_exceptions.md R200 to
R211, R215). -/

namespace Sys2Proof.Machine

open Sys2Proof

/-! ### The tables of R200 and R203 to R205, as conditions on the command -/

/-- Which modes a command does not support (R203). -/
theorem not_modeSupported_iff (i : Instr) (m : BitVec 2) :
    ¬ modeSupported i m = true ↔
      ((i = .enc ∨ i = .dec) ∧ m = 3) ∨ (i = .check ∧ (m = 2 ∨ m = 3)) ∨ (i = .ctrXcrypt ∧ m ≠ 2) := by
  cases i with
  | check => revert m; decide
  | _ => simp [modeSupported, modeCtr]

theorem usesAux_iff (i : Instr) : usesAux i = true ↔ i = .xor := by
  cases i <;> simp [usesAux]

theorem usesDst_iff (i : Instr) : usesDst i = true ↔ i ≠ .check := by
  cases i <;> simp [usesDst]

theorem oneBlock_iff (i : Instr) : oneBlock i = true ↔ i = .blkEnc ∨ i = .blkDec := by
  cases i <;> simp [oneBlock]

/-- MaxOut of ENC in a mode it supports (R204). -/
theorem maxOut_enc {m : BitVec 2} (hm : m ≠ 3) (l : Nat) :
    maxOut .enc m l = if m = 0 ∨ m = 1 then l + (16 - l % 16) else l := by
  rcases mode_cases hm with rfl | rfl | rfl <;> rfl

/-! ### The checks by their cause -/

/-- The ranges of a command lie inside BUF (R204). -/
abbrev State.RangesFit (i : Instr) (s : State) : Prop :=
  s.SrcFits ∧ (usesAux i = true → s.AuxFits) ∧ (usesDst i = true → s.DstFits (maxOut i s.mode s.len.toNat))

/-- The lengths of a command's operands are those it takes (R205). -/
abbrev State.LengthsMatch (i : Instr) (s : State) : Prop :=
  (usesAux i = true → s.len = s.auxLen) ∧ (oneBlock i = true → s.len = 16)

/-- The IV or the nonce that a command needs is valid (R207). -/
abbrev State.IvNonceReady (i : Instr) (s : State) : Prop :=
  (needsIV i s.mode = true → s.IvValid) ∧ (needsNonce i s.mode = true → s.NonceValid)

/-- The first failing check of a legal command, with one condition for each cause (R211). -/
theorem firstFailure_checks_byCause {i : Instr} {s : State} (hw : i.WellFormed) : firstFailure (checks i s) =
    if modeSupported i s.mode = true then
      if s.RangesFit i then
        if s.LengthsMatch i then
          if needsKey i = true → s.KeyLoaded then
            if s.IvNonceReady i then none else some .missingIvOrNonce
          else some .keyNotLoaded
        else some .lengthMismatch
      else some .addressRange
    else some .unsupportedModeOperation := by
  rw [firstFailure_checks hw]
  simp only [State.RangesFit, State.LengthsMatch, State.IvNonceReady, ite_and]

/-- A command that passes its checks succeeds or ends in INVALID_PADDING (R208, R210). -/
theorem exec_of_checks_pass {i : Instr} {s : State} (h : firstFailure (checks i s) = none) :
    ∃ t, exec i s = .next t ∧ ((t.err = false ∧ t.errCode = 0) ∨ (t.err = true ∧ t.errCode = 2)) := by
  cases hb : bodyOf i s with
  | complete out p => exact ⟨_, exec_complete h hb, .inl ⟨rfl, rfl⟩⟩
  | invalidPadding => exact ⟨_, exec_invalidPadding h hb, .inr ⟨rfl, rfl⟩⟩

/-- Settles O31: each cause is the negation of one condition of the chain of checks. -/
theorem firstFailingCheckDecidesTheError : Obligations.FirstFailingCheckDecidesTheError := by
  intro i s hw badMode most badRange badLength usesKey missing
  have hmode : badMode ↔ ¬ modeSupported i s.mode = true := (not_modeSupported_iff i s.mode).symm
  have hmost : ¬ badMode → i ≠ .check → most = maxOut i s.mode s.len.toNat := by
    intro hm hi
    cases i with
    | enc => exact (maxOut_enc (fun h3 => hm (.inl ⟨.inl rfl, h3⟩)) _).symm
    | check => exact absurd rfl hi
    | _ => rfl
  have hrange : ¬ badMode → (badRange ↔ ¬ s.RangesFit i) := by
    intro hm
    have hdst : (i ≠ .check ∧ ¬ s.DstFits most) ↔ ¬ (usesDst i = true → s.DstFits (maxOut i s.mode s.len.toNat)) := by
      rw [usesDst_iff, Classical.not_imp]
      exact and_congr_right fun hi => by rw [hmost hm hi]
    rw [not_and_or, not_and_or, ← hdst, usesAux_iff, Classical.not_imp]
  have hlength : badLength ↔ ¬ s.LengthsMatch i := by
    rw [not_and_or, usesAux_iff, oneBlock_iff, Classical.not_imp, Classical.not_imp]
  have hkey : usesKey ↔ needsKey i = true := (needsKey_iff i).symm
  have hmissing : missing ↔ ¬ s.IvNonceReady i := by
    rw [not_and_or, needsIV_iff, needsNonce_iff, Classical.not_imp, Classical.not_imp, and_assoc]
  have hchecks := firstFailure_checks_byCause (s := s) hw
  refine ⟨fun hm => exec_error (e := .unsupportedModeOperation) ?_, fun hm hr => exec_error (e := .addressRange) ?_,
    fun hm hr hl => exec_error (e := .lengthMismatch) ?_, fun hm hr hl hu hk => exec_error (e := .keyNotLoaded) ?_,
    fun hm hr hl hk hi => exec_error (e := .missingIvOrNonce) ?_, fun hm hr hl hk hi => exec_of_checks_pass ?_⟩
  · rw [hchecks, if_neg (hmode.1 hm)]
  · rw [hchecks, if_pos (hmode.not_left.1 hm), if_neg ((hrange hm).1 hr)]
  · rw [hchecks, if_pos (hmode.not_left.1 hm), if_pos ((hrange hm).not_left.1 hr), if_neg (hlength.1 hl)]
  · rw [hchecks, if_pos (hmode.not_left.1 hm), if_pos ((hrange hm).not_left.1 hr), if_pos (hlength.not_left.1 hl),
      if_neg fun h => hk (h (hkey.1 hu))]
  · rw [hchecks, if_pos (hmode.not_left.1 hm), if_pos ((hrange hm).not_left.1 hr), if_pos (hlength.not_left.1 hl),
      if_pos fun h => hk (hkey.2 h), if_neg (hmissing.1 hi)]
  · rw [hchecks, if_pos (hmode.not_left.1 hm), if_pos ((hrange hm).not_left.1 hr), if_pos (hlength.not_left.1 hl),
      if_pos fun h => hk (hkey.2 h), if_pos (hmissing.not_left.1 hi)]

/-! ### What an ending leaves -/

/-- INVALID_PADDING after consumption, written out (R207, R209). -/
theorem raiseError_consume (i : Instr) (s : State) : raiseError .invalidPadding (consume i s) = { s with
    err := true, errCode := 2, padOk := false, outLen := 0
    ivMask := if (i = .enc ∨ i = .dec ∨ i = .check) ∧ s.mode = 1 then 0 else s.ivMask
    nonceMask := if ((i = .enc ∨ i = .dec) ∧ s.mode = 2) ∨ i = .ctrXcrypt then 0 else s.nonceMask } := by
  simp only [← needsIV_iff, ← needsNonce_iff]
  rfl

/-- Settles O32: a failed check ends in another code than 2 and consumes nothing, a body's rejection ends in code 2
after consumption. -/
theorem errorsArePrecise : Obligations.ErrorsArePrecise := by
  refine ⟨fun i s t h he => ?_, fun v s hv => ?_⟩
  · rw [exec_next] at h
    subst h
    rcases execute_cases i (bodyOf i) s with ⟨e, hc, h⟩ | ⟨out, p, -, -, h⟩ | ⟨-, -, h⟩ <;> rw [h] at he ⊢
    · have hne := not_passedChecks_raiseError (s := s) (firstFailure_checks_ne hc)
      exact ⟨fun _ => rfl, fun h2 => absurd (.inr h2) hne⟩
    · cases he
    · exact ⟨fun h2 => absurd rfl h2, fun _ => raiseError_consume i s⟩
  · obtain ⟨e, hd⟩ := exists_decode_error_iff.2 hv
    exact runCommand_of_illegal hd s

/-- Settles O34: an error leaves OUT_LEN 0; a success leaves the length of its output, which MaxOut bounds and whose
range the checks found inside BUF. -/
theorem outputNeverExceedsMaxOut : Obligations.OutputNeverExceedsMaxOut := by
  intro i s t hinv h
  obtain ⟨⟨-, -, -, -, -, hmem⟩, -⟩ := hinv
  rw [exec_next] at h
  subst h
  rcases execute_cases i (bodyOf i) s with ⟨e, -, h⟩ | ⟨out, p, hc, hb, h⟩ | ⟨-, -, h⟩ <;> rw [h]
  · exact ⟨Nat.zero_le _, nofun⟩
  · rw [complete_outLen, outLen_toNat_of_passed hmem hc hb]
    have hle := bodyOf_length_le hb
    refine ⟨hle, fun _ hi => ?_⟩
    obtain ⟨-, -, -, -, hfit, -⟩ := checks_pass_iff.1 hc
    exact (Nat.add_le_add_left hle _).trans (hfit ((usesDst_iff i).2 hi))
  · exact ⟨Nat.zero_le _, nofun⟩

/-- Settles O28: a word is a command, which is the procedure with its body, or illegal, which is an error completion. -/
theorem noCommandStopsTheEngine : Obligations.NoCommandStopsTheEngine :=
  ⟨runCommand_next, fun i s => ⟨_, exec_eq i s⟩⟩

end Sys2Proof.Machine
end

section
/-! PROOFS. The key lock and the key mask: what sets them, and that reset alone clears them (10_state.md R24, R26, R41;
70_reset_and_hazards.md R231). -/

namespace Sys2Proof.Machine

open Sys2Proof

/-- What every step but a reset keeps of a locked key and of the key mask (R26, R231). -/
abbrev State.KeepsKeyProtection (s t : State) : Prop :=
  (s.keyLock = true → t.keyLock = true ∧ t.key = s.key ∧ t.keyMask = s.keyMask) ∧
  ∀ k : Nat, s.keyMask.getLsbD k = true → t.keyMask.getLsbD k = true

theorem keepsKeyProtection_of_eq {s t : State} (hlock : t.keyLock = s.keyLock) (hkey : t.key = s.key)
    (hmask : t.keyMask = s.keyMask) : s.KeepsKeyProtection t :=
  ⟨fun hl => ⟨hlock.trans hl, hkey, hmask⟩, fun _ hk => hmask ▸ hk⟩

theorem getLsbD_setMaskBit_of_getLsbD {n j : Nat} {m : BitVec n} (k : Nat) (h : m.getLsbD j = true) :
    (setMaskBit m k).getLsbD j = true := by
  rw [getLsbD_setMaskBit _ _ _ (BitVec.lt_of_getLsbD h), h, Bool.true_or]

theorem execute_keepsKeyProtection (i : Instr) (s : State) : s.KeepsKeyProtection (execute i (bodyOf i) s) := by
  obtain ⟨-, hlock, -, -, -, -, -, -, -, -, hkey, hmask, -⟩ := execute_keepsRegisters i s
  exact keepsKeyProtection_of_eq hlock hkey hmask

/-- A CTRL write can set KEYLOCK and cannot clear it (R24). -/
theorem writeCtrl_keepsKeyProtection (v : Word) (s : State) : s.KeepsKeyProtection (writeCtrl v s) := by
  refine ⟨fun hl => ⟨?_, rfl, rfl⟩, fun _ hk => hk⟩
  rw [writeCtrl_keyLock, hl, Bool.true_or]

/-- A KEY write is ignored under KEYLOCK (R26); a stored one adds a mask bit, and one past KEY_WORDS changes nothing
(R37). -/
theorem writeKey_keepsKeyProtection (k : Fin 16) (v : Word) (s : State) : s.KeepsKeyProtection (writeKey k v s) := by
  cases hl : s.keyLock with
  | true =>
    rw [writeKey_locked v hl]
    exact keepsKeyProtection_of_eq rfl rfl rfl
  | false =>
    rcases lt_or_ge k.val s.params.keyWords with hk | hk
    · rw [writeKey_stored v hl hk]
      exact ⟨fun h => absurd (hl.symm.trans h) nofun, fun _ => getLsbD_setMaskBit_of_getLsbD k.val⟩
    · rw [writeKey_pastKeyWords v hk]
      exact keepsKeyProtection_of_eq rfl rfl rfl

theorem regWrite_keepsKeyProtection (r : Reg) (v : Word) (s : State) : s.KeepsKeyProtection (regWrite r v s) := by
  cases r with
  | ctrl => exact writeCtrl_keepsKeyProtection v s
  | key k => exact writeKey_keepsKeyProtection k v s
  | _ => exact keepsKeyProtection_of_eq rfl rfl rfl

/-- Reset is the one action that does not keep the key protection. -/
theorem perform_keepsKeyProtection {a : Action} (hr : ∀ d, a ≠ .reset d) (s : State) :
    s.KeepsKeyProtection (perform a s) := by
  cases a with
  | writeReg r v => exact regWrite_keepsKeyProtection r v s
  | reset d => exact absurd rfl (hr d)
  | _ => exact keepsKeyProtection_of_eq rfl rfl rfl

/-- Only a reset event is taken as a reset. -/
theorem eq_reset_of_take {p : Params} {ev : HostEvent} {d : ResetDraw} (h : take p ev = .ok (.reset d)) :
    ev = .reset d := by
  simpa using take_cases h

/-- Settles O11: each thing a step can be but a reset keeps the key protection, and a reset leaves its reset values. -/
theorem onlyResetClearsKeyLockAndKeyMask : Obligations.OnlyResetClearsKeyLockAndKeyMask := by
  refine ⟨fun s t hnr ht => ?_, fun s d rest hp => ⟨_, step_perform hp rfl nofun, rfl, rfl⟩⟩
  show s.KeepsKeyProtection t
  rcases step_cases ht with ⟨-, rfl⟩ | ⟨ev, rest, hp, ⟨v, i, -, -, rfl⟩ | ⟨v, e, -, -, rfl⟩ | ⟨a, ha, -, rfl⟩⟩
  · exact keepsKeyProtection_of_eq rfl rfl rfl
  · exact execute_keepsKeyProtection i { s with pending := rest }
  · exact keepsKeyProtection_of_eq rfl rfl rfl
  · have hr : ∀ d, a ≠ .reset d := fun d had => hnr d rest (eq_reset_of_take (had ▸ ha) ▸ hp)
    exact perform_keepsKeyProtection hr { s with pending := rest }

end Sys2Proof.Machine
end
